-- ==== Sys2Proof/Word.lean ====
section
/-! DEFINITION. The machine's words: 32-bit registers, 8-bit memory cells, 5-bit register numbers
(spec 00_scope.md R7, 30_encoding.md R101). -/

namespace Sys2Proof

/-- A 32-bit value: a general register, the pc, an effective address, an instruction word (R7). -/
abbrev Word := BitVec 32

/-- One memory cell (R61). -/
abbrev Byte := BitVec 8

/-- A register number; every 5-bit value names a register (R30). -/
abbrev RegIdx := BitVec 5

/-- An opcode, `w[6:0]` (R101). -/
abbrev Opcode := BitVec 7

end Sys2Proof
end

