-- ==== Sys2Proof/Syntax.lean ====
section
/-! DEFINITION. The instructions: one constructor per row of the opcode table (spec 30_encoding.md R112),
with operands in assembly order (R121), and each one's format (R102). -/

namespace Sys2Proof

/-- The five instruction formats (30_encoding.md R102). -/
inductive IType where
  | R | I | S | U | E
  deriving DecidableEq, Repr

/-- The 35 mnemonics of the opcode table (R112). -/
inductive Mnemonic where
  | add | sub | mul | div | rem | and | or | xor | sll | srl | sra | slt
  | addi | subi | andi | ori | xori | slli | srli | srai | slti
  | lb | lh | lw | sb | sh | sw
  | beq | bne | blt | bge | jalr | jal
  | ecall | ebreak
  deriving DecidableEq, Repr

/-- The format of each mnemonic (R112, column itype). -/
def Mnemonic.itype : Mnemonic → IType
  | .add | .sub | .mul | .div | .rem | .and | .or | .xor | .sll | .srl | .sra | .slt => .R
  | .addi | .subi | .andi | .ori | .xori | .slli | .srli | .srai | .slti => .I
  | .lb | .lh | .lw | .jalr => .I
  | .sb | .sh | .sw | .beq | .bne | .blt | .bge => .S
  | .jal => .U
  | .ecall | .ebreak => .E

/-- An instruction with its operands. Immediates are the raw fields (R108): 15 bits in the I and S
formats, 20 bits in the U format. Every value of every field is legal (R115). -/
inductive Instr where
  -- R format: rd, rs1, rs2
  | add (rd rs1 rs2 : RegIdx)
  | sub (rd rs1 rs2 : RegIdx)
  | mul (rd rs1 rs2 : RegIdx)
  | div (rd rs1 rs2 : RegIdx)
  | rem (rd rs1 rs2 : RegIdx)
  | and (rd rs1 rs2 : RegIdx)
  | or (rd rs1 rs2 : RegIdx)
  | xor (rd rs1 rs2 : RegIdx)
  | sll (rd rs1 rs2 : RegIdx)
  | srl (rd rs1 rs2 : RegIdx)
  | sra (rd rs1 rs2 : RegIdx)
  | slt (rd rs1 rs2 : RegIdx)
  -- I format: rd, rs1, imm
  | addi (rd rs1 : RegIdx) (imm : BitVec 15)
  | subi (rd rs1 : RegIdx) (imm : BitVec 15)
  | andi (rd rs1 : RegIdx) (imm : BitVec 15)
  | ori (rd rs1 : RegIdx) (imm : BitVec 15)
  | xori (rd rs1 : RegIdx) (imm : BitVec 15)
  | slli (rd rs1 : RegIdx) (imm : BitVec 15)
  | srli (rd rs1 : RegIdx) (imm : BitVec 15)
  | srai (rd rs1 : RegIdx) (imm : BitVec 15)
  | slti (rd rs1 : RegIdx) (imm : BitVec 15)
  | lb (rd rs1 : RegIdx) (imm : BitVec 15)
  | lh (rd rs1 : RegIdx) (imm : BitVec 15)
  | lw (rd rs1 : RegIdx) (imm : BitVec 15)
  -- S format: rs1 (data, or left of a compare), rs2 (base, or right of a compare), imm
  | sb (rs1 rs2 : RegIdx) (imm : BitVec 15)
  | sh (rs1 rs2 : RegIdx) (imm : BitVec 15)
  | sw (rs1 rs2 : RegIdx) (imm : BitVec 15)
  | beq (rs1 rs2 : RegIdx) (imm : BitVec 15)
  | bne (rs1 rs2 : RegIdx) (imm : BitVec 15)
  | blt (rs1 rs2 : RegIdx) (imm : BitVec 15)
  | bge (rs1 rs2 : RegIdx) (imm : BitVec 15)
  -- jumps
  | jalr (rd rs1 : RegIdx) (imm : BitVec 15)
  | jal (rd : RegIdx) (imm : BitVec 20)
  -- E format
  | ecall
  | ebreak
  deriving DecidableEq, Repr

/-- The row of the opcode table an instruction belongs to. -/
def Instr.mnemonic : Instr → Mnemonic
  | .add .. => .add | .sub .. => .sub | .mul .. => .mul | .div .. => .div | .rem .. => .rem
  | .and .. => .and | .or .. => .or | .xor .. => .xor
  | .sll .. => .sll | .srl .. => .srl | .sra .. => .sra | .slt .. => .slt
  | .addi .. => .addi | .subi .. => .subi | .andi .. => .andi | .ori .. => .ori | .xori .. => .xori
  | .slli .. => .slli | .srli .. => .srli | .srai .. => .srai | .slti .. => .slti
  | .lb .. => .lb | .lh .. => .lh | .lw .. => .lw
  | .sb .. => .sb | .sh .. => .sh | .sw .. => .sw
  | .beq .. => .beq | .bne .. => .bne | .blt .. => .blt | .bge .. => .bge
  | .jalr .. => .jalr | .jal .. => .jal
  | .ecall => .ecall | .ebreak => .ebreak

/-- The register an instruction names as its destination, if its format has one (R102). -/
def Instr.dest : Instr → Option RegIdx
  | .add rd _ _ | .sub rd _ _ | .mul rd _ _ | .div rd _ _ | .rem rd _ _ => some rd
  | .and rd _ _ | .or rd _ _ | .xor rd _ _ => some rd
  | .sll rd _ _ | .srl rd _ _ | .sra rd _ _ | .slt rd _ _ => some rd
  | .addi rd _ _ | .subi rd _ _ | .andi rd _ _ | .ori rd _ _ | .xori rd _ _ => some rd
  | .slli rd _ _ | .srli rd _ _ | .srai rd _ _ | .slti rd _ _ => some rd
  | .lb rd _ _ | .lh rd _ _ | .lw rd _ _ | .jalr rd _ _ => some rd
  | .jal rd _ => some rd
  | .sb .. | .sh .. | .sw .. | .beq .. | .bne .. | .blt .. | .bge .. | .ecall | .ebreak => none

end Sys2Proof
end

