-- ==== Sys2Proof/Config.lean ====
section
/-! DEFINITION. The parameters a model takes (spec 00_scope.md R7): MEM_SIZE, BYTE_ORDER, OPCODE_TABLE, DIV_ZERO.
They are fixed for a run; a machine state carries them (log entry 1), so that a claim about every
state is a claim about every value of the parameters. The default values stand where a repair can mend
them: the default table in Decode.lean, the other defaults in Machine/Params.lean. -/

namespace Sys2Proof

/-- `BYTE_ORDER`: the order of the bytes of a word or half-word in memory (20_memory.md R63). -/
inductive ByteOrder where
  | little | big
  deriving DecidableEq, Repr

/-- `DIV_ZERO`: what DIV and REM do on a zero divisor (41_alu.md R222). -/
inductive DivZero where
  | fault | sentinel
  deriving DecidableEq, Repr

/-- What the opcode table holds for one opcode (30_encoding.md R110, R113, R114). -/
inductive OpcodeSlot where
  /-- A slot with no itype: a reserved or pseudo slot, which decodes to InvalidOpcode. -/
  | noItype
  /-- A slot with an itype and no mnemonic this spec defines, which raises UnhandledOpcode. -/
  | noRule (itype : IType)
  /-- A slot that names an instruction; its format is that of the instruction's rule (log entry 7). -/
  | instr (m : Mnemonic)
  deriving DecidableEq, Repr

/-- `OPCODE_TABLE`: the opcodes that have a slot. An opcode not listed is absent from the table. -/
abbrev OpcodeTable := List (Opcode × OpcodeSlot)

/-- The parameters (R7). -/
structure Config where
  /-- `MEM_SIZE`: the number of bytes of memory. -/
  memSize : Nat
  byteOrder : ByteOrder
  divZero : DivZero
  opcodes : OpcodeTable
  deriving DecidableEq, Repr

end Sys2Proof
end

