-- ==== Sys2Proof/WellFormed.lean ====
section
/-! DEFINITION. What is well formed: a memory size the spec admits, an opcode table that gives each opcode
one slot, and an instruction that a table has an opcode for. The operands of an instruction need no
check: the spec makes every value of every field legal (30_encoding.md R115). -/

namespace Sys2Proof

/-- `4 <= MEM_SIZE <= 2^31` (00_scope.md R7, 92_eei_decisions.md D29). -/
abbrev memSizeWf (n : Nat) : Prop := 4 ≤ n ∧ n ≤ 2 ^ 31

/-- A table is a map: no opcode has two slots (00_scope.md R20, "opcode table"). -/
abbrev OpcodeTable.wf (t : OpcodeTable) : Prop := (t.map Prod.fst).Nodup

/-- The parameters lie in the ranges of R7. -/
abbrev Config.wf (c : Config) : Prop := memSizeWf c.memSize ∧ OpcodeTable.wf c.opcodes

/-- The opcodes a table gives a mnemonic. -/
def OpcodeTable.opcodesOf (t : OpcodeTable) (m : Mnemonic) : List Opcode :=
  (t.filter (fun e => e.2 == .instr m)).map Prod.fst

/-- An instruction is well formed under a table that has an opcode for it: a table may leave
instructions out (92_eei_decisions.md D4). -/
abbrev Instr.wf (t : OpcodeTable) (i : Instr) : Prop := t.opcodesOf i.mnemonic ≠ []

end Sys2Proof
end

