-- ==== Sys2Proof/Decode.lean ====
section
/-! DEFINITION. Decoding and encoding (spec 30_encoding.md R100 to R116), the default opcode table (R112),
and the byte order of a word in memory (20_memory.md R63). Decoding is total: it answers an
instruction or a named rejection. -/

namespace Sys2Proof

/-! ### Bytes of a word -/

/-- The value of a byte string under little-endian order: `sum of b[k] * 2^(8k)` (R63). -/
def natOfBytesLE : List Byte → Nat
  | [] => 0
  | b :: bs => b.toNat + 256 * natOfBytesLE bs

/-- The low `n` bytes of a value in little-endian order: byte k is `v[8k+7 : 8k]` (R63). -/
def bytesOfNatLE : Nat → Nat → List Byte
  | 0, _ => []
  | n + 1, v => BitVec.ofNat 8 v :: bytesOfNatLE n (v / 256)

/-- The value of a byte string read from rising addresses in the machine's byte order (R63). -/
def natOfBytes (o : ByteOrder) (bs : List Byte) : Nat :=
  match o with
  | .little => natOfBytesLE bs
  | .big => natOfBytesLE bs.reverse

/-- The low `n` bytes of a value as they lie at rising addresses (R63). -/
def bytesOfNat (o : ByteOrder) (n v : Nat) : List Byte :=
  match o with
  | .little => bytesOfNatLE n v
  | .big => (bytesOfNatLE n v).reverse

/-! ### The opcode table -/

/-- The default `OPCODE_TABLE` (R112): opcodes 0x01 to 0x23; every other opcode is absent. -/
def defaultOpcodes : OpcodeTable :=
  [ (0x01, .instr .add), (0x02, .instr .sub), (0x03, .instr .mul), (0x04, .instr .div),
    (0x05, .instr .rem), (0x06, .instr .and), (0x07, .instr .or), (0x08, .instr .xor),
    (0x09, .instr .sll), (0x0A, .instr .srl), (0x0B, .instr .sra), (0x0C, .instr .slt),
    (0x0D, .instr .addi), (0x0E, .instr .subi), (0x0F, .instr .andi), (0x10, .instr .ori),
    (0x11, .instr .xori), (0x12, .instr .slli), (0x13, .instr .srli), (0x14, .instr .srai),
    (0x15, .instr .slti) ] ++
  [ (0x16, .instr .lb), (0x17, .instr .lh), (0x18, .instr .lw), (0x19, .instr .sb),
    (0x1A, .instr .sh), (0x1B, .instr .sw), (0x1C, .instr .beq), (0x1D, .instr .bne),
    (0x1E, .instr .blt), (0x1F, .instr .bge), (0x20, .instr .jalr), (0x21, .instr .jal),
    (0x22, .instr .ecall), (0x23, .instr .ebreak) ]

/-- The slot of an opcode: the table's first entry for it; `noItype` also where it is absent, since
R110 treats the two alike. -/
def slotOf (t : OpcodeTable) (op : Opcode) : OpcodeSlot :=
  match t with
  | [] => .noItype
  | (k, e) :: t => if k = op then e else slotOf t op

/-- The opcode the encoder uses for a mnemonic: the table's first. -/
def opcodeOf (t : OpcodeTable) (m : Mnemonic) : Option Opcode := (t.opcodesOf m).head?

/-! ### The decoded record -/

/-- The decoded instruction (R108). Fields the format does not define are 0; `imm` is the raw field,
15 bits (I, S) or 20 bits (U). -/
structure Decoded where
  itype : IType
  opcode : Opcode
  rd : RegIdx
  rs1 : RegIdx
  rs2 : RegIdx
  imm : BitVec 20
  deriving DecidableEq, Repr

/-- The opcode field, `w[6:0]` in every format (R101). -/
def opcodeField (w : Word) : Opcode := w.extractLsb' 0 7

/-- The record a word holds when read in a given format (R110, R103 to R107). -/
def decodeAs (t : IType) (w : Word) : Decoded :=
  let op := opcodeField w
  match t with
  | .R => ⟨.R, op, w.extractLsb' 7 5, w.extractLsb' 12 5, w.extractLsb' 17 5, 0⟩
  | .I => ⟨.I, op, w.extractLsb' 7 5, w.extractLsb' 12 5, 0, (w.extractLsb' 17 15).setWidth 20⟩
  | .S => ⟨.S, op, 0, w.extractLsb' 7 5, w.extractLsb' 12 5, (w.extractLsb' 17 15).setWidth 20⟩
  | .U => ⟨.U, op, w.extractLsb' 7 5, 0, 0, w.extractLsb' 12 20⟩
  | .E => ⟨.E, op, 0, 0, 0, 0⟩

/-- Why a word is not an instruction. -/
inductive DecodeError where
  /-- The opcode has no entry, or one with no itype (R110, R113). -/
  | invalidOpcode (op : Opcode) (w : Word)
  /-- The opcode has an itype and no rule (R114). -/
  | unhandledOpcode (op : Opcode)
  deriving DecidableEq, Repr

/-- Decode to the record (R110). -/
def decodeRecord (t : OpcodeTable) (w : Word) : Except DecodeError Decoded :=
  match slotOf t (opcodeField w) with
  | .noItype => .error (.invalidOpcode (opcodeField w) w)
  | .noRule it => .ok (decodeAs it w)
  | .instr m => .ok (decodeAs m.itype w)

/-- The instruction a mnemonic makes of a decoded record's fields (R103 to R107, R112). -/
def instrOf (m : Mnemonic) (d : Decoded) : Instr :=
  match m with
  | .add => .add d.rd d.rs1 d.rs2
  | .sub => .sub d.rd d.rs1 d.rs2
  | .mul => .mul d.rd d.rs1 d.rs2
  | .div => .div d.rd d.rs1 d.rs2
  | .rem => .rem d.rd d.rs1 d.rs2
  | .and => .and d.rd d.rs1 d.rs2
  | .or => .or d.rd d.rs1 d.rs2
  | .xor => .xor d.rd d.rs1 d.rs2
  | .sll => .sll d.rd d.rs1 d.rs2
  | .srl => .srl d.rd d.rs1 d.rs2
  | .sra => .sra d.rd d.rs1 d.rs2
  | .slt => .slt d.rd d.rs1 d.rs2
  | .addi => .addi d.rd d.rs1 (d.imm.setWidth 15)
  | .subi => .subi d.rd d.rs1 (d.imm.setWidth 15)
  | .andi => .andi d.rd d.rs1 (d.imm.setWidth 15)
  | .ori => .ori d.rd d.rs1 (d.imm.setWidth 15)
  | .xori => .xori d.rd d.rs1 (d.imm.setWidth 15)
  | .slli => .slli d.rd d.rs1 (d.imm.setWidth 15)
  | .srli => .srli d.rd d.rs1 (d.imm.setWidth 15)
  | .srai => .srai d.rd d.rs1 (d.imm.setWidth 15)
  | .slti => .slti d.rd d.rs1 (d.imm.setWidth 15)
  | .lb => .lb d.rd d.rs1 (d.imm.setWidth 15)
  | .lh => .lh d.rd d.rs1 (d.imm.setWidth 15)
  | .lw => .lw d.rd d.rs1 (d.imm.setWidth 15)
  | .sb => .sb d.rs1 d.rs2 (d.imm.setWidth 15)
  | .sh => .sh d.rs1 d.rs2 (d.imm.setWidth 15)
  | .sw => .sw d.rs1 d.rs2 (d.imm.setWidth 15)
  | .beq => .beq d.rs1 d.rs2 (d.imm.setWidth 15)
  | .bne => .bne d.rs1 d.rs2 (d.imm.setWidth 15)
  | .blt => .blt d.rs1 d.rs2 (d.imm.setWidth 15)
  | .bge => .bge d.rs1 d.rs2 (d.imm.setWidth 15)
  | .jalr => .jalr d.rd d.rs1 (d.imm.setWidth 15)
  | .jal => .jal d.rd d.imm
  | .ecall => .ecall
  | .ebreak => .ebreak

/-- Decode a word to the instruction it dispatches to (R110, then 40_cycle.md R163): InvalidOpcode
where the record does not decode, UnhandledOpcode where it decodes and has no rule. -/
def decode (t : OpcodeTable) (w : Word) : Except DecodeError Instr :=
  match decodeRecord t w with
  | .error e => .error e
  | .ok d =>
    match slotOf t d.opcode with
    | .instr m => .ok (instrOf m d)
    | _ => .error (.unhandledOpcode d.opcode)

/-- Decode the first instruction of a byte string: its first four bytes as one word in the byte order
(R100), and the bytes after it; `none` where fewer than four bytes stand there. -/
def decodeBytes (o : ByteOrder) (t : OpcodeTable) (bs : List Byte) :
    Option (Except DecodeError Instr × List Byte) :=
  match bs with
  | b0 :: b1 :: b2 :: b3 :: rest =>
    some (decode t (BitVec.ofNat 32 (natOfBytes o [b0, b1, b2, b3])), rest)
  | _ => none

/-- The instruction the decoder reads from the row's bits under the default parameters: the bits
above `nbits` are 0, and the word lies in memory little-endian. -/
def decodeTableWord (nbits w : Nat) : Option Instr :=
  match decodeBytes .little defaultOpcodes (bytesOfNat .little 4 (w % 2 ^ nbits)) with
  | some (.ok i, _) => some i
  | _ => none

/-! ### Encoding -/

/-- A field placed at a bit position of the word. -/
def placeField {n : Nat} (v : BitVec n) (pos : Nat) : Word := v.setWidth 32 <<< pos

/-- `encode(itype, opcode, rd, rs1, rs2, imm)`: every field masked to its width and packed, unused
bits 0, no overflow error (R111). -/
def encodeFields (t : IType) (opcode rd rs1 rs2 imm : Int) : Word :=
  let op := placeField (BitVec.ofInt 7 opcode) 0
  match t with
  | .R => op ||| placeField (BitVec.ofInt 5 rd) 7 ||| placeField (BitVec.ofInt 5 rs1) 12 |||
      placeField (BitVec.ofInt 5 rs2) 17
  | .I => op ||| placeField (BitVec.ofInt 5 rd) 7 ||| placeField (BitVec.ofInt 5 rs1) 12 |||
      placeField (BitVec.ofInt 15 imm) 17
  | .S => op ||| placeField (BitVec.ofInt 5 rs1) 7 ||| placeField (BitVec.ofInt 5 rs2) 12 |||
      placeField (BitVec.ofInt 15 imm) 17
  | .U => op ||| placeField (BitVec.ofInt 5 rd) 7 ||| placeField (BitVec.ofInt 20 imm) 12
  | .E => op

/-- The fields of an instruction, as the record of R108 under a given opcode. -/
def recordOf (op : Opcode) (i : Instr) : Decoded :=
  let r (rd rs1 rs2 : RegIdx) : Decoded := ⟨.R, op, rd, rs1, rs2, 0⟩
  let im (rd rs1 : RegIdx) (imm : BitVec 15) : Decoded := ⟨.I, op, rd, rs1, 0, imm.setWidth 20⟩
  let st (rs1 rs2 : RegIdx) (imm : BitVec 15) : Decoded := ⟨.S, op, 0, rs1, rs2, imm.setWidth 20⟩
  match i with
  | .add rd rs1 rs2 => r rd rs1 rs2
  | .sub rd rs1 rs2 => r rd rs1 rs2
  | .mul rd rs1 rs2 => r rd rs1 rs2
  | .div rd rs1 rs2 => r rd rs1 rs2
  | .rem rd rs1 rs2 => r rd rs1 rs2
  | .and rd rs1 rs2 => r rd rs1 rs2
  | .or rd rs1 rs2 => r rd rs1 rs2
  | .xor rd rs1 rs2 => r rd rs1 rs2
  | .sll rd rs1 rs2 => r rd rs1 rs2
  | .srl rd rs1 rs2 => r rd rs1 rs2
  | .sra rd rs1 rs2 => r rd rs1 rs2
  | .slt rd rs1 rs2 => r rd rs1 rs2
  | .addi rd rs1 imm => im rd rs1 imm
  | .subi rd rs1 imm => im rd rs1 imm
  | .andi rd rs1 imm => im rd rs1 imm
  | .ori rd rs1 imm => im rd rs1 imm
  | .xori rd rs1 imm => im rd rs1 imm
  | .slli rd rs1 imm => im rd rs1 imm
  | .srli rd rs1 imm => im rd rs1 imm
  | .srai rd rs1 imm => im rd rs1 imm
  | .slti rd rs1 imm => im rd rs1 imm
  | .lb rd rs1 imm => im rd rs1 imm
  | .lh rd rs1 imm => im rd rs1 imm
  | .lw rd rs1 imm => im rd rs1 imm
  | .sb rs1 rs2 imm => st rs1 rs2 imm
  | .sh rs1 rs2 imm => st rs1 rs2 imm
  | .sw rs1 rs2 imm => st rs1 rs2 imm
  | .beq rs1 rs2 imm => st rs1 rs2 imm
  | .bne rs1 rs2 imm => st rs1 rs2 imm
  | .blt rs1 rs2 imm => st rs1 rs2 imm
  | .bge rs1 rs2 imm => st rs1 rs2 imm
  | .jalr rd rs1 imm => im rd rs1 imm
  | .jal rd imm => ⟨.U, op, rd, 0, 0, imm⟩
  | .ecall => ⟨.E, op, 0, 0, 0, 0⟩
  | .ebreak => ⟨.E, op, 0, 0, 0, 0⟩

/-- The word of a record: its fields packed in its format (R111). -/
def encodeRecord (d : Decoded) : Word :=
  encodeFields d.itype d.opcode.toNat d.rd.toNat d.rs1.toNat d.rs2.toNat d.imm.toNat

/-- The word of an instruction under a table; `none` where the table has no opcode for it. -/
def encode (t : OpcodeTable) (i : Instr) : Option Word :=
  (opcodeOf t i.mnemonic).map (fun op => encodeRecord (recordOf op i))

end Sys2Proof
end

