-- ==== Sys2Proof/Machine/Params.lean ====
section
/-! DEFINITION. The parameters' default values (spec 00_scope.md R7), which the reset state carries. -/

namespace Sys2Proof.Machine

/-- The default parameters: little-endian, faulting division by zero, the table of R112 (R7).
`MEM_SIZE` is open in the spec; 0x1000 is the size its test vectors use (DESIGN CHOICE, log entry 2). -/
def defaultConfig : Config :=
  { memSize := 0x1000, byteOrder := .little, divZero := .fault, opcodes := defaultOpcodes }

end Sys2Proof.Machine
end

