-- ==== Sys2Proof/Machine/State.lean ====
section
/-! DEFINITION. The machine's state (spec 10_state.md, 20_memory.md R60, R61, 00_scope.md R13, R17), its fault
reasons (60_exceptions.md R300, R301) and the state after reset (10_state.md R45). -/

namespace Sys2Proof.Machine

/-- What an access was for, as `OutOfBounds` records it (20_memory.md R62). -/
inductive AccessKind where
  | fetch | load | store | syscall
  deriving DecidableEq, Repr

/-- The core's fault reasons: the closed list of 60_exceptions.md R300. Each records `fetchPc`, the `at` of
R301. The spec describes what a fault does to the state (40_cycle.md R166), so a fault is a NEXT state
whose `run` and `outcome` hold it (log entry 3): no meaning and no step answers `Host.Outcome.fault`. -/
inductive Fault where
  /-- Code 1: an access of `width` bytes at `addr` leaves memory (20_memory.md R62). Raised by fetch, the loads
  and stores, and the write system call. Safe: the spec's own fault. -/
  | outOfBounds (addr : Word) (width : Nat) (kind : AccessKind) (fetchPc : Word)
  /-- Code 2: no instruction has this opcode (30_encoding.md R110). Raised by decode. Safe: the spec's own fault. -/
  | invalidOpcode (op : Opcode) (w : Word) (fetchPc : Word)
  /-- Code 3: the opcode has an itype and no rule (30_encoding.md R114). Raised by dispatch under a table
  with such an entry, never under the default table. Safe: the spec's own fault. -/
  | unhandledOpcode (op : Opcode) (fetchPc : Word)
  /-- Code 4: DIV or REM by zero when `DIV_ZERO` is fault (41_alu.md R204, R205). Safe: the spec's own fault. -/
  | divideByZero (fetchPc : Word)
  /-- Code 5: ECALL with an `a7` that names no service (44_system.md R284). Safe: the spec's own fault. -/
  | unhandledSyscall (a7 : Word) (fetchPc : Word)
  /-- Code 6: the write system call with an fd other than 1 and 2 (44_system.md R282). Safe: the spec's own fault. -/
  | invalidSyscallArgument (fd : Word) (fetchPc : Word)
  deriving DecidableEq, Repr

/-- Why the model gives an instruction no meaning. -/
inductive Refusal where
  /-- Raised by an arm of `exec` whose instruction has no meaning yet. Every instruction of this model has
  one, so nothing raises it. Safe: the model stops. -/
  | notModelled (mnemonic : String)
  deriving DecidableEq, Repr

/-- The outcomes that halt the core (10_state.md R40). -/
inductive HaltOutcome where
  | exited (code : Word)
  | faulted (f : Fault)
  deriving DecidableEq, Repr

/-- The halt state (10_state.md R40). -/
inductive RunState where
  | running
  | halted (o : HaltOutcome)
  deriving DecidableEq, Repr

/-- What a `Step` returns (00_scope.md R13). -/
inductive StepOutcome where
  | continued
  | exited (code : Word)
  | breakpoint
  | faulted (f : Fault)
  deriving DecidableEq, Repr

/-- The two output streams (00_scope.md R17). -/
inductive Fd where
  | stdout | stderr
  deriving DecidableEq, Repr

/-- One event of the output channel (00_scope.md R17). -/
structure OutputEvent where
  fd : Fd
  bytes : List Byte
  deriving DecidableEq, Repr

/-- Memory: the bytes that differ from what an unlisted address reads as, by rising address. -/
abbrev Memory := List Host.Cell

/-- The machine. `x0` has no storage (10_state.md R31). -/
structure State where
  /-- The parameters of R7; nothing changes them (log entry 1). -/
  cfg : Config
  /-- The 31 mutable registers: index k holds x[k + 1] (10_state.md R30). -/
  regs : Vector Word 31
  /-- The program counter (10_state.md R36). -/
  pc : Word
  /-- The byte array of 20_memory.md R60. -/
  mem : Memory
  /-- The halt state (10_state.md R40). -/
  run : RunState
  /-- The output channel, oldest event first (00_scope.md R17). -/
  output : List OutputEvent
  /-- What the last step returned, none before the first: the model's own field (log entry 4). -/
  outcome : Option StepOutcome
  deriving DecidableEq, Repr

/-- The result of a meaning or a step. -/
abbrev Result := Host.Outcome State Fault Refusal

/-! The updates: one per field a step writes. -/

/-- The state with other registers. -/
def State.setRegs (s : State) (x : Vector Word 31) : State := { s with regs := x }
/-- The state with another pc. -/
def State.setPc (s : State) (x : Word) : State := { s with pc := x }
/-- The state with another memory. -/
def State.setMem (s : State) (x : Memory) : State := { s with mem := x }
/-- The state with another halt state. -/
def State.setRun (s : State) (x : RunState) : State := { s with run := x }
/-- The state with another output channel. -/
def State.setOutput (s : State) (x : List OutputEvent) : State := { s with output := x }
/-- The state with another last outcome. -/
def State.setOutcome (s : State) (x : Option StepOutcome) : State := { s with outcome := x }

/-- The state at machine creation under given parameters: the reset values of 10_state.md R45 (creation is a
reset, 70_reset_and_hazards.md R341), and an output channel with no event yet (log entry 5). -/
def State.created (c : Config) : State :=
  { cfg := c, regs := Vector.replicate 31 0, pc := 0, mem := [], run := .running, output := [], outcome := none }

/-- The machine right after reset, under the default parameters. -/
def State.reset : State := State.created defaultConfig

end Sys2Proof.Machine
end

