-- ==== Sys2Proof/Machine/Ops.lean ====
section
/-! DEFINITION. The named operations over registers and memory, how a step ends (continue, exit, breakpoint,
fault), and the fetch (spec 10_state.md R30 to R40, 20_memory.md R60 to R73, 40_cycle.md R160 to R168,
60_exceptions.md R306). -/

namespace Sys2Proof.Machine

/-! ### Registers -/

/-- `x[i]`: index 0 reads 0 (10_state.md R31). -/
def readReg (s : State) (r : RegIdx) : Word :=
  if r = 0 then 0 else s.regs[r.toNat - 1]'(by have := r.isLt; omega)

/-- `x[i] <- v`: a write to index 0 has no effect (10_state.md R32). -/
def writeReg (r : RegIdx) (v : Word) (s : State) : State :=
  if r = 0 then s else s.setRegs (s.regs.set (r.toNat - 1) v (by have := r.isLt; omega))

/-! ### Memory bytes -/

/-- What a byte that nothing has written reads as: memory is zero-filled on reset (20_memory.md R61). -/
def unlistedByte : Byte := 0

/-- The canonical form: addresses strictly rising, no entry equal to what an unlisted address reads as. -/
abbrev Memory.wf (m : Memory) : Prop :=
  m.Pairwise (fun c d => c.1 < d.1) ∧ ∀ c ∈ m, c.2 ≠ unlistedByte

/-- Every listed address lies in the byte array (20_memory.md R60). -/
abbrev Memory.within (size : Nat) (m : Memory) : Prop := ∀ c ∈ m, c.1 < size

/-- The byte at an address. -/
def Memory.read (m : Memory) (a : Nat) : Byte :=
  match m with
  | [] => unlistedByte
  | (c, b) :: m => if c = a then b else Memory.read m a

/-- Put an entry before the first one of a higher address. -/
def Memory.insert (m : Memory) (a : Nat) (b : Byte) : Memory :=
  match m with
  | [] => [(a, b)]
  | (c, x) :: m => if a < c then (a, b) :: (c, x) :: m else (c, x) :: Memory.insert m a b

/-- The memory with one byte replaced, in canonical form. -/
def Memory.write (m : Memory) (a : Nat) (b : Byte) : Memory :=
  let rest := m.filter (fun c => c.1 != a)
  if b = unlistedByte then rest else Memory.insert rest a b

/-- The `n` bytes from an address, in address order (20_memory.md R70). -/
def Memory.readBytes (m : Memory) : Nat → Nat → List Byte
  | _, 0 => []
  | a, n + 1 => Memory.read m a :: Memory.readBytes m (a + 1) n

/-- The memory with a byte string written from an address up. -/
def Memory.writeBytes (m : Memory) : Nat → List Byte → Memory
  | _, [] => m
  | a, b :: bs => Memory.writeBytes (Memory.write m a b) (a + 1) bs

/-! ### Bounds-checked access -/

/-- `legal(a, n)`: the access lies in memory, the sum taken without wrap (20_memory.md R62). -/
abbrev legal (s : State) (a : Word) (n : Nat) : Prop := a.toNat + n ≤ s.cfg.memSize

/-- The bytes of a range, or `OutOfBounds` (20_memory.md R62, R70). -/
def memReadBytes (s : State) (a : Word) (n : Nat) (kind : AccessKind) (fetchPc : Word) :
    Except Fault (List Byte) :=
  if legal s a n then .ok (s.mem.readBytes a.toNat n) else .error (.outOfBounds a n kind fetchPc)

/-- `MemRead(a, n)`: the value of `n` bytes in the machine's byte order (20_memory.md R62, R63). -/
def memRead (s : State) (a : Word) (n : Nat) (kind : AccessKind) (fetchPc : Word) : Except Fault Nat :=
  match memReadBytes s a n kind fetchPc with
  | .ok bs => .ok (natOfBytes s.cfg.byteOrder bs)
  | .error f => .error f

/-- `MemWrite(a, n, v)`: the low `n` bytes of `v` in the machine's byte order, or no byte at all
(20_memory.md R62, R63, R67). -/
def memWrite (s : State) (a : Word) (n : Nat) (v : Nat) (fetchPc : Word) : Except Fault State :=
  if legal s a n then .ok (s.setMem (s.mem.writeBytes a.toNat (bytesOfNat s.cfg.byteOrder n v)))
  else .error (.outOfBounds a n .store fetchPc)

/-! ### How a step ends -/

/-- `fetch_pc` inside an instruction: fetch has advanced pc by 4 (10_state.md R37, log entry 9). -/
def fetchPcOf (s : State) : Word := s.pc - 4

/-- The outcome a halted core returns (10_state.md R40). -/
def HaltOutcome.toStep : HaltOutcome → StepOutcome
  | .exited c => .exited c
  | .faulted f => .faulted f

/-- Outcome `Continued` (00_scope.md R13). -/
def finish (s : State) : Result := .next (s.setOutcome (some .continued))

/-- `halt O` for an outcome that latches: `run <- Halted(O)`, and the step returns O (10_state.md R40). -/
def haltWith (o : HaltOutcome) (s : State) : Result :=
  .next ((s.setRun (.halted o)).setOutcome (some o.toStep))

/-- TAKING A FAULT: `raise F` sets `run <- Halted(Faulted(F))` and returns `Faulted(F)`; it saves nothing else,
and goes to no handler (40_cycle.md R160, R166, 60_exceptions.md R306). -/
def raise (f : Fault) (s : State) : Result := haltWith (.faulted f) s

/-- Outcome `Exited(code)`, which latches (44_system.md R283). -/
def exitWith (code : Word) (s : State) : Result := haltWith (.exited code) s

/-- Outcome `Breakpoint`, which does not latch: `run` stays Running (40_cycle.md R168, 44_system.md R285). -/
def breakpoint (s : State) : Result := .next (s.setOutcome (some .breakpoint))

/-- A step of a halted core returns its outcome again and changes no state (40_cycle.md R167). There is no
return from a fault: only `Reset` leaves the halted state (60_exceptions.md R307; `hostReset`). -/
def repeatOutcome (o : HaltOutcome) (s : State) : Result := .next (s.setOutcome (some o.toStep))

/-- `emit(fd, bytes)`: append an event to the output channel (00_scope.md R17). -/
def emit (fd : Fd) (bytes : List Byte) (s : State) : State := s.setOutput (s.output ++ [⟨fd, bytes⟩])

/-- The number of a stream (00_scope.md R17). -/
def Fd.number : Fd → Word
  | .stdout => 1
  | .stderr => 2

/-- The stream a register value names; fd is 1 or 2 (44_system.md R282). -/
def fdOfWord (v : Word) : Option Fd :=
  if v = 1 then some .stdout else if v = 2 then some .stderr else none

/-- The fault codes of a status output (60_exceptions.md R300). -/
def Fault.code : Fault → Nat
  | .outOfBounds .. => 1
  | .invalidOpcode .. => 2
  | .unhandledOpcode .. => 3
  | .divideByZero .. => 4
  | .unhandledSyscall .. => 5
  | .invalidSyscallArgument .. => 6

/-- The `at` of a fault: the fetch_pc of the instruction that raised it (60_exceptions.md R301). -/
def Fault.fetchPc : Fault → Word
  | .outOfBounds _ _ _ p => p
  | .invalidOpcode _ _ p => p
  | .unhandledOpcode _ p => p
  | .divideByZero p => p
  | .unhandledSyscall _ p => p
  | .invalidSyscallArgument _ p => p

/-- The codes of the step outcomes (60_exceptions.md R300). -/
def StepOutcome.code : StepOutcome → Nat
  | .continued => 0
  | .exited _ => 1
  | .breakpoint => 2
  | .faulted _ => 3

/-! ### Fetch -/

/-- Fetch the word at pc and advance pc by 4; a fetch out of bounds leaves pc as it is (40_cycle.md R161). -/
def fetch (s : State) : Except Fault (Word × State) :=
  match memRead s s.pc 4 .fetch s.pc with
  | .ok v => .ok (BitVec.ofNat 32 v, s.setPc (s.pc + 4))
  | .error f => .error f

/-- The fault a word that is no instruction raises, after the fetch (40_cycle.md R162, R163). -/
def faultOfDecode (e : DecodeError) (s : State) : Fault :=
  match e with
  | .invalidOpcode op w => .invalidOpcode op w (fetchPcOf s)
  | .unhandledOpcode op => .unhandledOpcode op (fetchPcOf s)

/-- Place an instruction word where the next step fetches it: the word's four bytes in the machine's byte
order at pc, and a core that runs; where no fetch at pc is legal, nothing changes (log entry 6). -/
def placeFetchWord (s : State) (w : Nat) : State :=
  if legal s s.pc 4 then
    (s.setRun .running).setMem (s.mem.writeBytes s.pc.toNat (bytesOfNat s.cfg.byteOrder 4 w))
  else s

end Sys2Proof.Machine
end

