-- ==== Sys2Proof/Machine/Operands.lean ====
section
/-! DEFINITION. The operand forms: immediates, effective addresses, shift amounts, jump targets, system-call
arguments (spec 30_encoding.md R109, 42_load_store.md R240, 41_alu.md R209, 43_control.md R267, 44_system.md R280). -/

namespace Sys2Proof.Machine

/-- `immI = sext_15(imm15)`: the I and S immediate at execution (30_encoding.md R109). -/
def immI (imm : BitVec 15) : Word := imm.signExtend 32

/-- `immU = zext_20(imm20)`: the U immediate at execution (30_encoding.md R109). -/
def immU (imm : BitVec 20) : Word := imm.setWidth 32

/-- A register plus a sign-extended immediate, mod 2^32: the address of a load or store (42_load_store.md R240)
and the target of JALR (43_control.md R266). -/
def effAddr (s : State) (base : RegIdx) (imm : BitVec 15) : Word := readReg s base + immI imm

/-- The shift amount: the low 5 bits of the shift operand (41_alu.md R222). Those of `immI` are
`imm15[4:0]` (R218). -/
def shiftAmount (v : Word) : Nat := (v.extractLsb' 0 5).toNat

/-- `sext_8` (00_scope.md R9). -/
def sext8 (v : Nat) : Word := (BitVec.ofNat 8 v).signExtend 32

/-- `sext_16` (00_scope.md R9). -/
def sext16 (v : Nat) : Word := (BitVec.ofNat 16 v).signExtend 32

/-- `a7`, the system-call selector (10_state.md R34). -/
def regA7 : RegIdx := 17
/-- `a0`, the first system-call argument (10_state.md R34). -/
def regA0 : RegIdx := 10
/-- `a1`, the second system-call argument (10_state.md R34). -/
def regA1 : RegIdx := 11
/-- `a2`, the third system-call argument (10_state.md R34). -/
def regA2 : RegIdx := 12

end Sys2Proof.Machine
end

