-- ==== Sys2Proof/Machine/Flags.lean ====
section
/-! DEFINITION. The core has no flags and no condition codes (spec 10_state.md R41). What stands in their place:
the comparisons, whose result a register takes (SLT, SLTI) or a branch acts on (BEQ, BNE, BLT, BGE). -/

namespace Sys2Proof.Machine

/-- `<s`: signed less-than (00_scope.md R9). -/
def ltSigned (a b : Word) : Bool := decide (a.toInt < b.toInt)

/-- `signed(a) >= signed(b)` (43_control.md R264). -/
def geSigned (a b : Word) : Bool := decide (b.toInt ≤ a.toInt)

/-- Equality of two words (43_control.md R261). -/
def eqWords (a b : Word) : Bool := decide (a = b)

/-- Inequality of two words (43_control.md R262). -/
def neWords (a b : Word) : Bool := decide (a ≠ b)

/-- 1 for true, 0 for false (41_alu.md R212). -/
def wordOfBool (b : Bool) : Word := if b then 1 else 0

end Sys2Proof.Machine
end

