-- ==== Sys2Proof/Machine/Alu.lean ====
section
/-! DEFINITION. The ALU instructions (spec 41_alu.md). Every one reads its sources before it writes rd (R200),
and leaves pc at the next instruction (40_cycle.md R164). -/

namespace Sys2Proof.Machine

/-! ### The arithmetic -/

/-- Sum mod 2^32 (R201). -/
def aluAdd (a b : Word) : Word := a + b
/-- Difference mod 2^32 (R202). -/
def aluSub (a b : Word) : Word := a - b
/-- Low 32 bits of the product (R203). -/
def aluMul (a b : Word) : Word := a * b
/-- Bitwise and (R206). -/
def aluAnd (a b : Word) : Word := a &&& b
/-- Bitwise or (R207). -/
def aluOr (a b : Word) : Word := a ||| b
/-- Bitwise exclusive or (R208). -/
def aluXor (a b : Word) : Word := a ^^^ b
/-- Shift left by the low 5 bits of `b` (R209). -/
def aluSll (a b : Word) : Word := a <<< shiftAmount b
/-- Shift right by the low 5 bits of `b`, filling with zeros (R210). -/
def aluSrl (a b : Word) : Word := a >>> shiftAmount b
/-- Shift right by the low 5 bits of `b`, filling with copies of bit 31 (R211). -/
def aluSra (a b : Word) : Word := a.sshiftRight (shiftAmount b)
/-- Signed less-than as 0 or 1 (R212). -/
def aluSlt (a b : Word) : Word := wordOfBool (ltSigned a b)

/-- The quotient of R204: truncated toward zero, `-2^31 / -1 = -2^31`; on a zero divisor the sentinel
0xFFFFFFFF, or `none` where DIV_ZERO is fault. -/
def aluDiv (p : DivZero) (a b : Word) : Option Word :=
  if b.toInt = 0 then
    match p with
    | .fault => none
    | .sentinel => some 0xFFFFFFFF
  else if a.toInt = -2 ^ 31 ∧ b.toInt = -1 then some 0x80000000
  else some (BitVec.ofInt 32 (a.toInt.tdiv b.toInt))

/-- The remainder of R205: `a - b * q` with the quotient of R204; on a zero divisor the dividend, or `none`
where DIV_ZERO is fault. -/
def aluRem (p : DivZero) (a b : Word) : Option Word :=
  if b.toInt = 0 then
    match p with
    | .fault => none
    | .sentinel => some a
  else if a.toInt = -2 ^ 31 ∧ b.toInt = -1 then some 0
  else some (BitVec.ofInt 32 (a.toInt - b.toInt * a.toInt.tdiv b.toInt))

/-! ### The shapes -/

/-- A register-register operation: `x[rd] <- f x[rs1] x[rs2]` (R200). -/
def aluReg (f : Word → Word → Word) (rd rs1 rs2 : RegIdx) (s : State) : Result :=
  finish (writeReg rd (f (readReg s rs1) (readReg s rs2)) s)

/-- A register-immediate operation: `x[rd] <- f x[rs1] immI` (R200). -/
def aluImm (f : Word → Word → Word) (rd rs1 : RegIdx) (imm : BitVec 15) (s : State) : Result :=
  finish (writeReg rd (f (readReg s rs1) (immI imm)) s)

/-- A division: DivideByZero, with no register written, where the operation has no value (R204, R205). -/
def aluDivision (f : DivZero → Word → Word → Option Word) (rd rs1 rs2 : RegIdx) (s : State) : Result :=
  match f s.cfg.divZero (readReg s rs1) (readReg s rs2) with
  | some v => finish (writeReg rd v s)
  | none => raise (.divideByZero (fetchPcOf s)) s

/-! ### Register-register instructions -/

/-- ADD (R201). -/
def execAdd (rd rs1 rs2 : RegIdx) (s : State) : Result := aluReg aluAdd rd rs1 rs2 s
/-- SUB (R202). -/
def execSub (rd rs1 rs2 : RegIdx) (s : State) : Result := aluReg aluSub rd rs1 rs2 s
/-- MUL (R203). -/
def execMul (rd rs1 rs2 : RegIdx) (s : State) : Result := aluReg aluMul rd rs1 rs2 s
/-- DIV (R204). -/
def execDiv (rd rs1 rs2 : RegIdx) (s : State) : Result := aluDivision aluDiv rd rs1 rs2 s
/-- REM (R205). -/
def execRem (rd rs1 rs2 : RegIdx) (s : State) : Result := aluDivision aluRem rd rs1 rs2 s
/-- AND (R206). -/
def execAnd (rd rs1 rs2 : RegIdx) (s : State) : Result := aluReg aluAnd rd rs1 rs2 s
/-- OR (R207). -/
def execOr (rd rs1 rs2 : RegIdx) (s : State) : Result := aluReg aluOr rd rs1 rs2 s
/-- XOR (R208). -/
def execXor (rd rs1 rs2 : RegIdx) (s : State) : Result := aluReg aluXor rd rs1 rs2 s
/-- SLL (R209). -/
def execSll (rd rs1 rs2 : RegIdx) (s : State) : Result := aluReg aluSll rd rs1 rs2 s
/-- SRL (R210). -/
def execSrl (rd rs1 rs2 : RegIdx) (s : State) : Result := aluReg aluSrl rd rs1 rs2 s
/-- SRA (R211). -/
def execSra (rd rs1 rs2 : RegIdx) (s : State) : Result := aluReg aluSra rd rs1 rs2 s
/-- SLT (R212). -/
def execSlt (rd rs1 rs2 : RegIdx) (s : State) : Result := aluReg aluSlt rd rs1 rs2 s

/-! ### Register-immediate instructions -/

/-- ADDI (R213). -/
def execAddi (rd rs1 : RegIdx) (imm : BitVec 15) (s : State) : Result := aluImm aluAdd rd rs1 imm s
/-- SUBI (R214). -/
def execSubi (rd rs1 : RegIdx) (imm : BitVec 15) (s : State) : Result := aluImm aluSub rd rs1 imm s
/-- ANDI (R215). -/
def execAndi (rd rs1 : RegIdx) (imm : BitVec 15) (s : State) : Result := aluImm aluAnd rd rs1 imm s
/-- ORI (R216). -/
def execOri (rd rs1 : RegIdx) (imm : BitVec 15) (s : State) : Result := aluImm aluOr rd rs1 imm s
/-- XORI (R217). -/
def execXori (rd rs1 : RegIdx) (imm : BitVec 15) (s : State) : Result := aluImm aluXor rd rs1 imm s
/-- SLLI (R218). -/
def execSlli (rd rs1 : RegIdx) (imm : BitVec 15) (s : State) : Result := aluImm aluSll rd rs1 imm s
/-- SRLI (R219). -/
def execSrli (rd rs1 : RegIdx) (imm : BitVec 15) (s : State) : Result := aluImm aluSrl rd rs1 imm s
/-- SRAI (R220). -/
def execSrai (rd rs1 : RegIdx) (imm : BitVec 15) (s : State) : Result := aluImm aluSra rd rs1 imm s
/-- SLTI (R221). -/
def execSlti (rd rs1 : RegIdx) (imm : BitVec 15) (s : State) : Result := aluImm aluSlt rd rs1 imm s

end Sys2Proof.Machine
end

