-- ==== Sys2Proof/Machine/Control.lean ====
section
/-! DEFINITION. Branches and jumps (spec 43_control.md). Every target is absolute and unaligned targets are kept
(R267); a bad target faults at the next fetch. -/

namespace Sys2Proof.Machine

/-- A branch: pc to `immI` where the condition on `x[rs1]`, `x[rs2]` holds, else pc stays `fetch_pc + 4` (R260). -/
def branchIf (taken : Word → Word → Bool) (rs1 rs2 : RegIdx) (imm : BitVec 15) (s : State) : Result :=
  finish (if taken (readReg s rs1) (readReg s rs2) then s.setPc (immI imm) else s)

/-- A jump with link: pc to the target, rd to the pc before it, the address of the following instruction
(R265, R266). The target is computed from the state before rd is written. -/
def jumpLink (rd : RegIdx) (target : Word) (s : State) : Result :=
  finish (writeReg rd s.pc (s.setPc target))

/-- BEQ (R261). -/
def execBeq (rs1 rs2 : RegIdx) (imm : BitVec 15) (s : State) : Result := branchIf eqWords rs1 rs2 imm s
/-- BNE (R262). -/
def execBne (rs1 rs2 : RegIdx) (imm : BitVec 15) (s : State) : Result := branchIf neWords rs1 rs2 imm s
/-- BLT (R263). -/
def execBlt (rs1 rs2 : RegIdx) (imm : BitVec 15) (s : State) : Result := branchIf ltSigned rs1 rs2 imm s
/-- BGE (R264). -/
def execBge (rs1 rs2 : RegIdx) (imm : BitVec 15) (s : State) : Result := branchIf geSigned rs1 rs2 imm s
/-- JALR (R266). -/
def execJalr (rd rs1 : RegIdx) (imm : BitVec 15) (s : State) : Result := jumpLink rd (effAddr s rs1 imm) s
/-- JAL (R265). -/
def execJal (rd : RegIdx) (imm : BitVec 20) (s : State) : Result := jumpLink rd (immU imm) s

end Sys2Proof.Machine
end

