-- ==== Sys2Proof/Machine/LoadStore.lean ====
section
/-! DEFINITION. Loads and stores (spec 42_load_store.md). -/

namespace Sys2Proof.Machine

/-- A load of `n` bytes at `x[rs1] + immI`, extended to a word; out of bounds writes no register, and rd = 0
discards only the write (42_load_store.md R240). -/
def loadAt (n : Nat) (extend : Nat → Word) (rd rs1 : RegIdx) (imm : BitVec 15) (s : State) : Result :=
  match memRead s (effAddr s rs1 imm) n .load (fetchPcOf s) with
  | .ok v => finish (writeReg rd (extend v) s)
  | .error f => raise f s

/-- A store of the low `n` bytes of `x[rs1]` at `x[rs2] + immI`; out of bounds writes no byte (R240). -/
def storeAt (n : Nat) (rs1 rs2 : RegIdx) (imm : BitVec 15) (s : State) : Result :=
  match memWrite s (effAddr s rs2 imm) n (readReg s rs1).toNat (fetchPcOf s) with
  | .ok t => finish t
  | .error f => raise f s

/-- LB (R241). -/
def execLb (rd rs1 : RegIdx) (imm : BitVec 15) (s : State) : Result := loadAt 1 sext8 rd rs1 imm s
/-- LH (R242). -/
def execLh (rd rs1 : RegIdx) (imm : BitVec 15) (s : State) : Result := loadAt 2 sext16 rd rs1 imm s
/-- LW (R243). -/
def execLw (rd rs1 : RegIdx) (imm : BitVec 15) (s : State) : Result := loadAt 4 (BitVec.ofNat 32) rd rs1 imm s
/-- SB (R244). -/
def execSb (rs1 rs2 : RegIdx) (imm : BitVec 15) (s : State) : Result := storeAt 1 rs1 rs2 imm s
/-- SH (R245). -/
def execSh (rs1 rs2 : RegIdx) (imm : BitVec 15) (s : State) : Result := storeAt 2 rs1 rs2 imm s
/-- SW (R246). -/
def execSw (rs1 rs2 : RegIdx) (imm : BitVec 15) (s : State) : Result := storeAt 4 rs1 rs2 imm s

end Sys2Proof.Machine
end

