-- ==== Sys2Proof/Machine/System.lean ====
section
/-! DEFINITION. The system-call gateway and the breakpoint (spec 44_system.md). -/

namespace Sys2Proof.Machine

/-- ECALL service 64, write: the fd check, then the bounds check, then one event of the raw bytes (R282,
60_exceptions.md R303). No register is written (R280). -/
def syscallWrite (s : State) : Result :=
  match fdOfWord (readReg s regA0) with
  | none => raise (.invalidSyscallArgument (readReg s regA0) (fetchPcOf s)) s
  | some fd =>
    match memReadBytes s (readReg s regA1) (readReg s regA2).toNat .syscall (fetchPcOf s) with
    | .ok bs => finish (emit fd bs s)
    | .error f => raise f s

/-- ECALL service 93, exit: the full 32-bit code (R283). -/
def syscallExit (s : State) : Result := exitWith (readReg s regA0) s

/-- ECALL: `a7`, compared as a full word, selects the service; any other value faults (R281, R284). -/
def execEcall (s : State) : Result :=
  if readReg s regA7 = 64 then syscallWrite s
  else if readReg s regA7 = 93 then syscallExit s
  else raise (.unhandledSyscall (readReg s regA7) (fetchPcOf s)) s

/-- EBREAK (R285). -/
def execEbreak (s : State) : Result := breakpoint s

end Sys2Proof.Machine
end

