-- ==== Sys2Proof/Machine/Step.lean ====
section
/-! DEFINITION. One step of the core: fetch, decode, dispatch (spec 40_cycle.md R160). -/

namespace Sys2Proof.Machine

/-- `Step` (R160): a halted core repeats its outcome (R167); a running one fetches the word at pc, advances pc,
decodes and executes, in this order of checks (60_exceptions.md R303). -/
def step (s : State) : Host.Outcome State Fault Refusal :=
  match s.run with
  | .halted o => repeatOutcome o s
  | .running =>
    match fetch s with
    | .error f => raise f s
    | .ok (w, t) =>
      match decode t.cfg.opcodes w with
      | .error e => raise (faultOfDecode e t) t
      | .ok i => exec i t

/-- The state with the instruction of a row's bits (the bits above `nbits` 0) placed where the next step
fetches (log entry 6). -/
def State.withFetchWord (s : State) (nbits w : Nat) : State := placeFetchWord s (w % 2 ^ nbits)

end Sys2Proof.Machine
end

