-- ==== Sys2Proof/Machine/HostOps.lean ====
section
/-! DEFINITION. What the host does between steps: Reset, LoadImage and the read accessors (spec 00_scope.md R12,
R15, R16; 70_reset_and_hazards.md R340 to R347). -/

namespace Sys2Proof.Machine

/-- `Reset`: registers, pc and memory to 0, run to Running; MEM_SIZE and the other parameters and the output
channel stay (70_reset_and_hazards.md R340). -/
def hostReset (s : State) : State := (State.created s.cfg).setOutput s.output

/-- `LoadImage(img)`: the image at address 0, every other byte, the registers, pc and run unchanged; `none`
where the image does not fit, and then the memory the host goes on with is the old one
(70_reset_and_hazards.md R345). -/
def loadImage (img : List Byte) (s : State) : Option State :=
  if img.length ≤ s.cfg.memSize then some (s.setMem (s.mem.writeBytes 0 img)) else none

/-- The launch state of a run: Reset, then LoadImage (70_reset_and_hazards.md R347). -/
def launch (img : List Byte) (s : State) : Option State := loadImage img (hostReset s)

/-- `ReadReg(i)` (00_scope.md R12, R16). -/
def hostReadReg (s : State) (r : RegIdx) : Word := readReg s r

/-- `ReadPC` (00_scope.md R12, R16). -/
def hostReadPc (s : State) : Word := s.pc

/-- `ReadMem(a, n)`: the bytes of a range, `none` where it leaves memory (00_scope.md R12, R16; log entry 12). -/
def hostReadMem (s : State) (a n : Nat) : Option (List Byte) :=
  if a + n ≤ s.cfg.memSize then some (s.mem.readBytes a n) else none

end Sys2Proof.Machine
end

