-- ==== Sys2Proof/Machine/Assembler.lean ====
section
/-! DEFINITION. What the spec keeps of the assembler's side: register names (10_state.md R33, 30_encoding.md R122),
immediate operands (R123), the pseudo-instructions (R130 to R132), the data directives' bytes (R125), symbol values and
their patching (R124, 70_reset_and_hazards.md R346) and the image layout (R345). The line grammar and the lexer are out
of the spec's scope (00_scope.md R6; log entry 14). No step uses this file. -/

namespace Sys2Proof.Machine

/-- Why an assembly makes no image (60_exceptions.md R302). -/
inductive AsmError where
  /-- A statement the assembler does not take, an unimplemented pseudo-instruction among them (30_encoding.md R132). -/
  | parseError
  /-- A symbol that nothing defines (30_encoding.md R124). -/
  | undefinedSymbol (name : String)
  /-- A deferred reference on an instruction of the R or E format (93_implementation_defined.md I20). -/
  | noImmediateField
  /-- The image is longer than memory (70_reset_and_hazards.md R345). -/
  | tooLarge
  deriving DecidableEq, Repr

/-! ### Register names -/

/-- The register aliases in index order (10_state.md R33). -/
def registerAliases : List String :=
  [ "zero", "ra", "sp", "gp", "tp", "t0", "t1", "t2", "s0", "s1", "a0", "a1", "a2", "a3", "a4", "a5",
    "a6", "a7", "s2", "s3", "s4", "s5", "s6", "s7", "s8", "s9", "s10", "s11", "t3", "t4", "t5", "t6" ]

/-- The numeric names `x0` to `x31` in index order (30_encoding.md R122). -/
def registerNumbers : List String :=
  [ "x0", "x1", "x2", "x3", "x4", "x5", "x6", "x7", "x8", "x9", "x10", "x11", "x12", "x13", "x14", "x15",
    "x16", "x17", "x18", "x19", "x20", "x21", "x22", "x23", "x24", "x25", "x26", "x27", "x28", "x29", "x30", "x31" ]

/-- The place of a name in a list of names, numbered from `k`. -/
def indexOfName (n : List Char) (k : Nat) : List String → Option RegIdx
  | [] => none
  | m :: ms => if m.toList = n then some (BitVec.ofNat 5 k) else indexOfName n (k + 1) ms

/-- The register a token names, case-insensitively (10_state.md R33, 30_encoding.md R122); `fp` and `pc` name
none (R33, R38). The token is given by its characters. -/
def registerOfToken (tok : List Char) : Option RegIdx :=
  match indexOfName (tok.map Char.toLower) 0 registerNumbers with
  | some r => some r
  | none => indexOfName (tok.map Char.toLower) 0 registerAliases

/-! ### Immediate operands -/

/-- The value of a digit character in a base up to 16; a hexadecimal digit in either case (30_encoding.md R123). -/
def digitValue (base : Nat) (c : Char) : Option Nat :=
  let d := if 48 ≤ c.toNat ∧ c.toNat ≤ 57 then c.toNat - 48
    else if 97 ≤ c.toNat ∧ c.toNat ≤ 102 then c.toNat - 87
    else if 65 ≤ c.toNat ∧ c.toNat ≤ 70 then c.toNat - 55
    else base
  if d < base then some d else none

/-- The number that digits stand for after a number already read, the most significant digit first. -/
def numberOfDigits (base acc : Nat) : List Char → Option Nat
  | [] => some acc
  | c :: cs =>
    match digitValue base c with
    | some d => numberOfDigits base (acc * base + d) cs
    | none => none

/-- The character after a backslash: `n`, `t` or `r` (30_encoding.md R123). -/
def escapedChar (c : Char) : Option Nat :=
  if c = 'n' then some 10 else if c = 't' then some 9 else if c = 'r' then some 13 else none

/-- A character that stands for itself between quotes: any but the quote and the backslash (log entry 14). -/
def plainChar (c : Char) : Option Nat := if c.toNat = 39 ∨ c.toNat = 92 then none else some c.toNat

/-- The value of an immediate token without a sign: a quoted character, `0x` and hexadecimal digits, or decimal
digits (30_encoding.md R123). The token is given by its characters; 39 is the single quote and 92 the backslash.
DESIGN CHOICE: R123 says 'quoted' and not which character delimits the literal; the model takes the single quote
(log entry 14). -/
def unsignedImmediate (tok : List Char) : Option Nat :=
  match tok with
  | [] => none
  | [q, c, r] =>
    if q.toNat = 39 ∧ r.toNat = 39 then plainChar c
    else if q = '0' ∧ c = 'x' then numberOfDigits 16 0 [r]
    else numberOfDigits 10 0 [q, c, r]
  | q :: c :: d :: ds =>
    if q.toNat = 39 then
      match ds with
      | [r] => if c.toNat = 92 ∧ r.toNat = 39 then escapedChar d else none
      | _ => none
    else if q = '0' ∧ c = 'x' then numberOfDigits 16 0 (d :: ds)
    else numberOfDigits 10 0 (q :: c :: d :: ds)
  | ds => numberOfDigits 10 0 ds

/-- The value of an immediate operand; a leading `-` negates the token after it (30_encoding.md R123). -/
def immediateOfToken (tok : List Char) : Option Int :=
  match tok with
  | [] => none
  | c :: cs =>
    if c = '-' then (unsignedImmediate cs).map (fun n => -(n : Int))
    else (unsignedImmediate (c :: cs)).map (fun n => (n : Int))

/-- The immediate field of an operand: its value truncated to the field's width, with no error (30_encoding.md R123,
R111); 15 bits in the I and S formats, 20 in the U format. -/
def immediateField (width : Nat) (tok : List Char) : Option (BitVec width) :=
  (immediateOfToken tok).map (BitVec.ofInt width)

/-! ### Pseudo-instructions -/

/-- The pseudo-instructions that have an expansion, in assembly operand order (30_encoding.md R130). A symbol
operand stands as its value. -/
inductive Pseudo where
  | li (rd : RegIdx) (imm : Int)
  | la (rd : RegIdx) (sym : Int)
  | mv (rd rs : RegIdx)
  | beqz (rs : RegIdx) (target : Int)
  | bnez (rs : RegIdx) (target : Int)
  | jr (target : Int)
  | j (target : Int)
  | ret
  | nop
  | push (rs : RegIdx)
  | pop (rd : RegIdx)
  /-- SEQZ, SNEZ, SLTZ and SGTZ are declared and not implemented (30_encoding.md R132). -/
  | seqz | snez | sltz | sgtz
  deriving DecidableEq, Repr

/-- `ra` (10_state.md R33). -/
def regRa : RegIdx := 1
/-- `sp` (10_state.md R33). -/
def regSp : RegIdx := 2

/-- The instructions a pseudo-instruction stands for (30_encoding.md R130); values are truncated to the
immediate field without an error (R111, R131). -/
def Pseudo.expand : Pseudo → Except AsmError (List Instr)
  | .li rd imm => .ok [.addi rd 0 (BitVec.ofInt 15 imm)]
  | .la rd sym => .ok [.addi rd 0 (BitVec.ofInt 15 sym)]
  | .mv rd rs => .ok [.addi rd rs 0]
  | .beqz rs target => .ok [.beq rs 0 (BitVec.ofInt 15 target)]
  | .bnez rs target => .ok [.bne rs 0 (BitVec.ofInt 15 target)]
  | .jr target => .ok [.jal regRa (BitVec.ofInt 20 target)]
  | .j target => .ok [.jal 0 (BitVec.ofInt 20 target)]
  | .ret => .ok [.jalr 0 regRa 0]
  | .nop => .ok [.addi 0 0 0]
  | .push rs => .ok [.sw rs regSp 0, .subi regSp regSp 4]
  | .pop rd => .ok [.addi regSp regSp 4, .lw rd regSp 0]
  | .seqz | .snez | .sltz | .sgtz => .error .parseError

/-! ### Bytes of the image -/

/-- The bytes of an instruction word in the image (70_reset_and_hazards.md R346). -/
def wordBytes (o : ByteOrder) (w : Word) : List Byte := bytesOfNat o 4 w.toNat

/-- The directives that put bytes in the image (30_encoding.md R125). -/
inductive Directive where
  | words (vs : List Int)
  | halves (vs : List Int)
  | bytes (vs : List Int)
  /-- `.string`, `.ascii` and `.asciz`: the raw bytes, no terminator added. -/
  | chars (bs : List Byte)
  | skip (n : Nat)
  deriving DecidableEq, Repr

/-- The bytes a directive appends, each integer truncated to its width (30_encoding.md R125). -/
def Directive.image (o : ByteOrder) : Directive → List Byte
  | .words vs => vs.flatMap (fun v => bytesOfNat o 4 (BitVec.ofInt 32 v).toNat)
  | .halves vs => vs.flatMap (fun v => bytesOfNat o 2 (BitVec.ofInt 16 v).toNat)
  | .bytes vs => vs.flatMap (fun v => bytesOfNat o 1 (BitVec.ofInt 8 v).toNat)
  | .chars bs => bs
  | .skip n => List.replicate n 0

/-! ### Sections and symbols -/

/-- A section: a named byte region (00_scope.md R20). -/
structure AsmSection where
  name : String
  bytes : List Byte
  deriving DecidableEq, Repr

/-- The final section order: the configured names first, in listed order, then the other sections in the order
they were met (70_reset_and_hazards.md R345). -/
def finalOrder (order : List String) (met : List AsmSection) : List AsmSection :=
  order.eraseDups.flatMap (fun n => met.filter (fun s => s.name == n))
    ++ met.filter (fun s => !order.contains s.name)

/-- The image: the sections laid out contiguously from address 0 (70_reset_and_hazards.md R345). -/
def imageOf (sections : List AsmSection) : List Byte := sections.flatMap AsmSection.bytes

/-- The base address of a section in a layout (70_reset_and_hazards.md R345). -/
def baseOf (name : String) : List AsmSection → Option Nat
  | [] => none
  | s :: ss => if s.name = name then some 0 else (baseOf name ss).map (· + s.bytes.length)

/-- What a symbol stands for: a place in a section, or an absolute value given by `.set` (30_encoding.md R125,
90_conflicts.md C4). -/
inductive SymbolValue where
  | label (sect : String) (offset : Nat)
  | absolute (value : Int)
  deriving DecidableEq, Repr

/-- The value of a symbol: its section's base plus its offset, or its absolute value; a symbol nothing defines is
an error (30_encoding.md R124, 70_reset_and_hazards.md R346). -/
def symbolAddress (layout : List AsmSection) (symbols : List (String × SymbolValue)) (name : String) :
    Except AsmError Int :=
  match symbols.lookup name with
  | none => .error (.undefinedSymbol name)
  | some (.absolute v) => .ok v
  | some (.label sect off) =>
    match baseOf sect layout with
    | none => .error (.undefinedSymbol name)
    | some b => .ok (b + off : Int)

/-- Patch a decoded instruction's immediate with a symbol's value, truncated to the field; only the I, S and U
formats carry a deferred reference (30_encoding.md R124). -/
def patchRecord (d : Decoded) (value : Int) : Except AsmError Decoded :=
  match d.itype with
  | .I | .S => .ok { d with imm := (BitVec.ofInt 15 value).setWidth 20 }
  | .U => .ok { d with imm := BitVec.ofInt 20 value }
  | .R | .E => .error .noImmediateField

/-- Patch an instruction word: decode it, replace the immediate, encode it again (70_reset_and_hazards.md R346). -/
def patchWord (t : OpcodeTable) (w : Word) (value : Int) : Except AsmError Word :=
  match decodeRecord t w with
  | .error _ => .error .parseError
  | .ok d =>
    match patchRecord d value with
    | .error e => .error e
    | .ok d => .ok (encodeRecord d)

/-- Load a layout's image, or say why none is loaded (70_reset_and_hazards.md R345, 60_exceptions.md R302). -/
def loadSections (layout : List AsmSection) (s : State) : Except AsmError State :=
  match loadImage (imageOf layout) s with
  | none => .error .tooLarge
  | some t => .ok t

/-! ### Assembling a list of statements -/

/-- A statement, after lexing and parsing (30_encoding.md R120, R125, R130). `ref` names the symbol that stands in
the immediate position, where one does; the immediate beside it is then only a place holder. -/
inductive AsmStmt where
  | label (name : String)
  | sect (name : String)
  | data (d : Directive)
  | setSymbol (name : String) (value : Int)
  | instr (i : Instr) (ref : Option String)
  | pseudo (p : Pseudo) (ref : Option String)
  deriving DecidableEq, Repr

/-- A deferred reference (00_scope.md R20). -/
structure DeferredRef where
  sect : String
  offset : Nat
  name : String
  deriving DecidableEq, Repr

/-- What the assembler holds between statements. -/
structure AsmState where
  /-- The section that bytes go to; at first the one with the empty name (30_encoding.md R125). -/
  current : String
  /-- The sections in the order they were met. -/
  sections : List AsmSection
  /-- The symbols' values, the latest definition first: `.set` overrides an earlier value (90_conflicts.md C4). -/
  symbols : List (String × SymbolValue)
  refs : List DeferredRef
  deriving DecidableEq, Repr

/-- The state before the first statement. -/
def AsmState.initial : AsmState := { current := "", sections := [⟨"", []⟩], symbols := [], refs := [] }

/-- Append bytes to a section, which is met now if it was not before. -/
def appendTo (name : String) (bs : List Byte) : List AsmSection → List AsmSection
  | [] => [⟨name, bs⟩]
  | s :: ss => if s.name = name then ⟨name, s.bytes ++ bs⟩ :: ss else s :: appendTo name bs ss

/-- The bytes a section holds so far. -/
def bytesOfSection (name : String) : List AsmSection → List Byte
  | [] => []
  | s :: ss => if s.name = name then s.bytes else bytesOfSection name ss

/-- The write cursor of the current section (30_encoding.md R120). -/
def AsmState.cursor (a : AsmState) : Nat := (bytesOfSection a.current a.sections).length

/-- Append bytes to the current section. -/
def AsmState.append (a : AsmState) (bs : List Byte) : AsmState :=
  { a with sections := appendTo a.current bs a.sections }

/-- Append an instruction's word, and record the reference it carries (30_encoding.md R124); a table without the
instruction refuses it. -/
def assembleInstr (o : ByteOrder) (t : OpcodeTable) (i : Instr) (ref : Option String) (a : AsmState) :
    Except AsmError AsmState :=
  match encode t i with
  | none => .error .parseError
  | some w =>
    match ref with
    | none => .ok (a.append (wordBytes o w))
    | some n => .ok { a.append (wordBytes o w) with refs := a.refs ++ [⟨a.current, a.cursor, n⟩] }

/-- Append the words of several instructions that carry no reference. -/
def assembleInstrs (o : ByteOrder) (t : OpcodeTable) : List Instr → AsmState → Except AsmError AsmState
  | [], a => .ok a
  | i :: is, a =>
    match assembleInstr o t i none a with
    | .error e => .error e
    | .ok a => assembleInstrs o t is a

/-- A pseudo-instruction has an immediate or target operand (30_encoding.md R130). -/
def Pseudo.takesSymbol : Pseudo → Bool
  | .li .. | .la .. | .beqz .. | .bnez .. | .jr .. | .j .. => true
  | .mv .. | .ret | .nop | .push .. | .pop .. | .seqz | .snez | .sltz | .sgtz => false

/-- Assemble one statement (30_encoding.md R120 to R132). -/
def assembleStmt (o : ByteOrder) (t : OpcodeTable) (st : AsmStmt) (a : AsmState) : Except AsmError AsmState :=
  match st with
  | .label n => .ok { a with symbols := (n, .label a.current a.cursor) :: a.symbols }
  | .sect n => .ok { a with current := n, sections := appendTo n [] a.sections }
  | .data d => .ok (a.append (d.image o))
  | .setSymbol n v => .ok { a with symbols := (n, .absolute v) :: a.symbols }
  | .instr i ref => assembleInstr o t i ref a
  | .pseudo p ref =>
    match p.expand, ref with
    | .error e, _ => .error e
    | .ok is, none => assembleInstrs o t is a
    | .ok [i], some n => if p.takesSymbol then assembleInstr o t i (some n) a else .error .parseError
    | .ok _, some _ => .error .parseError

/-- Assemble the statements in order, up to the first error. -/
def assembleStmts (o : ByteOrder) (t : OpcodeTable) : List AsmStmt → AsmState → Except AsmError AsmState
  | [], a => .ok a
  | st :: sts, a =>
    match assembleStmt o t st a with
    | .error e => .error e
    | .ok a => assembleStmts o t sts a

/-- Patch the word at an offset of a section's bytes (70_reset_and_hazards.md R346). -/
def patchBytes (o : ByteOrder) (t : OpcodeTable) (off : Nat) (value : Int) (bs : List Byte) :
    Except AsmError (List Byte) :=
  match patchWord t (BitVec.ofNat 32 (natOfBytes o ((bs.drop off).take 4))) value with
  | .error e => .error e
  | .ok w => .ok (bs.take off ++ wordBytes o w ++ bs.drop (off + 4))

/-- Patch one deferred reference with its symbol's absolute address (30_encoding.md R124). -/
def linkRef (o : ByteOrder) (t : OpcodeTable) (symbols : List (String × SymbolValue)) (layout : List AsmSection)
    (r : DeferredRef) : Except AsmError (List AsmSection) :=
  match symbolAddress layout symbols r.name with
  | .error e => .error e
  | .ok v =>
    match patchBytes o t r.offset v (bytesOfSection r.sect layout) with
    | .error e => .error e
    | .ok bs => .ok (layout.map (fun s => if s.name = r.sect then ⟨s.name, bs⟩ else s))

/-- Patch the deferred references in order, up to the first error. -/
def linkRefs (o : ByteOrder) (t : OpcodeTable) (symbols : List (String × SymbolValue)) :
    List DeferredRef → List AsmSection → Except AsmError (List AsmSection)
  | [], layout => .ok layout
  | r :: rs, layout =>
    match linkRef o t symbols layout r with
    | .error e => .error e
    | .ok layout => linkRefs o t symbols rs layout

/-- `assemble`: lay the sections out, patch the references, load the image; an error loads nothing, and the host
goes on with the machine it had (70_reset_and_hazards.md R345, R346, 60_exceptions.md R302). -/
def assemble (order : List String) (stmts : List AsmStmt) (s : State) : Except AsmError State :=
  match assembleStmts s.cfg.byteOrder s.cfg.opcodes stmts AsmState.initial with
  | .error e => .error e
  | .ok a =>
    match linkRefs s.cfg.byteOrder s.cfg.opcodes a.symbols a.refs (finalOrder order a.sections) with
    | .error e => .error e
    | .ok layout => loadSections layout s

end Sys2Proof.Machine
end

