-- ==== Sys2Proof/Safety.lean ====
section
/-! DEFINITION. What a run and its end are, what counts as a safe run, the invariant of the machine, and the words
the statements use: what an instruction leaves unchanged, and the instruction a state fetches. -/

namespace Sys2Proof.Machine

/-! ### Runs -/

/-- The last step ended the run: its outcome is not `Continued` (spec 00_scope.md R14, 44_system.md R286). -/
def ended (s : State) : Bool :=
  match s.outcome with
  | none | some .continued => false
  | _ => true

/-- The fault the last step returned, if it returned one. -/
def faultOf (s : State) : Option Fault :=
  match s.outcome with
  | some (.faulted f) => some f
  | _ => none

/-- A run: at most `fuel` steps, up to the first whose outcome is not `Continued` (00_scope.md R14). -/
def runToEnd : Nat → State → Result
  | 0, s => .next s
  | fuel + 1, s =>
    match step s with
    | .next t => if ended t then .next t else runToEnd fuel t
    | .fault f => .fault f
    | .refused r => .refused r

/-- A run of at most `n` steps is safe: none of its steps returns `Faulted`. -/
def SafeFor (n : Nat) (s : State) : Prop :=
  ∀ k, k ≤ n → ∀ t, Host.Core.run Sys2Proof.core k s = .next t → k ≠ 0 → faultOf t = none

/-! ### The invariant -/

/-- The latch and the last outcome agree: a halted core last returned the outcome it holds, a running one
did not return an outcome that halts (10_state.md R40). -/
def latchAgrees (s : State) : Prop :=
  match s.run with
  | .halted o => s.outcome = some o.toStep
  | .running => s.outcome = none ∨ s.outcome = some .continued ∨ s.outcome = some .breakpoint

/-- What every step keeps: parameters in the ranges of 00_scope.md R7, memory in canonical form and inside the
byte array (20_memory.md R60), the halt latch in agreement with the last outcome. -/
structure Inv (s : State) : Prop where
  cfg : Config.wf s.cfg
  memCanonical : Memory.wf s.mem
  memWithin : Memory.within s.cfg.memSize s.mem
  latch : latchAgrees s

/-! ### What stays -/

/-- Every byte of memory reads as before. -/
def SameMem (s t : State) : Prop := ∀ a, t.mem.read a = s.mem.read a

/-- Every byte of memory outside `lo .. lo + n - 1` reads as before. -/
def SameMemOutside (lo n : Nat) (s t : State) : Prop :=
  ∀ a, a < lo ∨ lo + n ≤ a → t.mem.read a = s.mem.read a

/-- Every register reads as before. -/
def SameRegs (s t : State) : Prop := ∀ r, readReg t r = readReg s r

/-- `x[rd]` reads `v` (0 for rd = 0) and every other register reads as before (10_state.md R31, R32). -/
def RegWritten (rd : RegIdx) (v : Word) (s t : State) : Prop :=
  ∀ r, readReg t r = if r = rd ∧ rd ≠ 0 then v else readReg s r

/-- The parameters, the halt state and the output channel stay, and the step returned `Continued`. -/
def Continued (s t : State) : Prop :=
  t.cfg = s.cfg ∧ t.run = s.run ∧ t.output = s.output ∧ t.outcome = some .continued

/-- The only effect of the instruction is that rd takes `v` and the step returns `Continued`. -/
def OnlyWrites (rd : RegIdx) (v : Word) (s t : State) : Prop :=
  RegWritten rd v s t ∧ SameMem s t ∧ t.pc = s.pc ∧ Continued s t

/-- `t` is `s` with the fault taken and nothing else changed (40_cycle.md R166). -/
def FaultTaken (f : Fault) (s t : State) : Prop :=
  t.run = .halted (.faulted f) ∧ t.outcome = some (.faulted f) ∧
    SameRegs s t ∧ SameMem s t ∧ t.pc = s.pc ∧ t.cfg = s.cfg ∧ t.output = s.output

/-! ### Fetching -/

/-- The word at pc, in the machine's byte order (40_cycle.md R161). -/
def wordAtPc (s : State) : Word :=
  BitVec.ofNat 32 (natOfBytes s.cfg.byteOrder (s.mem.readBytes s.pc.toNat 4))

/-- The state every instruction rule sees: pc advanced by 4 (10_state.md R37). -/
def advanced (s : State) : State := s.setPc (s.pc + 4)

/-- The next step of `s` fetches and decodes the instruction `i`. -/
def Fetches (s : State) (i : Instr) : Prop :=
  s.run = .running ∧ legal s s.pc 4 ∧ decode s.cfg.opcodes (wordAtPc s) = .ok i

/-- The fault of an access of `n` bytes at `a`, if it leaves memory (20_memory.md R62). -/
def boundsFault (s : State) (a : Word) (n : Nat) (kind : AccessKind) : Option Fault :=
  if s.cfg.memSize < a.toNat + n then some (.outOfBounds a n kind s.pc) else none

/-- An instruction's own check, the fourth of 60_exceptions.md R303, for an instruction fetched at `s.pc`:
the fault it raises, if it raises one. -/
def ownFault (i : Instr) (s : State) : Option Fault :=
  match i with
  | .div _ _ rs2 | .rem _ _ rs2 =>
    if readReg s rs2 = 0 ∧ s.cfg.divZero = .fault then some (.divideByZero s.pc) else none
  | .lb _ rs1 imm => boundsFault s (readReg s rs1 + imm.signExtend 32) 1 .load
  | .lh _ rs1 imm => boundsFault s (readReg s rs1 + imm.signExtend 32) 2 .load
  | .lw _ rs1 imm => boundsFault s (readReg s rs1 + imm.signExtend 32) 4 .load
  | .sb _ rs2 imm => boundsFault s (readReg s rs2 + imm.signExtend 32) 1 .store
  | .sh _ rs2 imm => boundsFault s (readReg s rs2 + imm.signExtend 32) 2 .store
  | .sw _ rs2 imm => boundsFault s (readReg s rs2 + imm.signExtend 32) 4 .store
  | .ecall =>
    if readReg s 17 = 64 then
      if readReg s 10 ≠ 1 ∧ readReg s 10 ≠ 2 then some (.invalidSyscallArgument (readReg s 10) s.pc)
      else boundsFault s (readReg s 11) (readReg s 12).toNat .syscall
    else if readReg s 17 = 93 then none
    else some (.unhandledSyscall (readReg s 17) s.pc)
  | .add .. | .sub .. | .mul .. | .and .. | .or .. | .xor .. | .sll .. | .srl .. | .sra .. | .slt .. => none
  | .addi .. | .subi .. | .andi .. | .ori .. | .xori .. | .slli .. | .srli .. | .srai .. | .slti .. => none
  | .beq .. | .bne .. | .blt .. | .bge .. | .jalr .. | .jal .. | .ebreak => none

/-- The fault of a step of a running core: the first check of 60_exceptions.md R303 that fails, if one does. -/
def stepFault (s : State) : Option Fault :=
  if s.cfg.memSize < s.pc.toNat + 4 then some (.outOfBounds s.pc 4 .fetch s.pc)
  else
    match decode s.cfg.opcodes (wordAtPc s) with
    | .error (.invalidOpcode op w) => some (.invalidOpcode op w s.pc)
    | .error (.unhandledOpcode op) => some (.unhandledOpcode op s.pc)
    | .ok i => ownFault i s

/-! ### Encodings under the default table -/

/-- Every word with this opcode is the R-format instruction `f` of its fields (30_encoding.md R103). -/
def EncodedR (op : Opcode) (f : RegIdx → RegIdx → RegIdx → Instr) : Prop :=
  ∀ w : Word, opcodeField w = op →
    decode defaultOpcodes w = .ok (f (w.extractLsb' 7 5) (w.extractLsb' 12 5) (w.extractLsb' 17 5))

/-- Every word with this opcode is the I-format instruction `f` of its fields (R104); the S format has the same
positions, with rs1 and rs2 in them (R105). -/
def EncodedI (op : Opcode) (f : RegIdx → RegIdx → BitVec 15 → Instr) : Prop :=
  ∀ w : Word, opcodeField w = op →
    decode defaultOpcodes w = .ok (f (w.extractLsb' 7 5) (w.extractLsb' 12 5) (w.extractLsb' 17 15))

/-- Every word with this opcode is the U-format instruction `f` of its fields (R106). -/
def EncodedU (op : Opcode) (f : RegIdx → BitVec 20 → Instr) : Prop :=
  ∀ w : Word, opcodeField w = op →
    decode defaultOpcodes w = .ok (f (w.extractLsb' 7 5) (w.extractLsb' 12 20))

/-- Every word with this opcode is the E-format instruction `i` (R107). -/
def EncodedE (op : Opcode) (i : Instr) : Prop :=
  ∀ w : Word, opcodeField w = op → decode defaultOpcodes w = .ok i

end Sys2Proof.Machine
end

