-- ==== Sys2Proof/Certificates/Slice0/Obligations.lean ====
section
/-! DEFINITION. The statements for the provers. Each docstring names the rule of spec/ it formalises. `s` is the state an
instruction rule sees (spec 00_scope.md R11: pc already holds fetch_pc + 4, so fetch_pc is `s.pc - 4`), unless the
statement speaks of `step`. The parameters are fields of the state, so a statement for every state holds for
every value of MEM_SIZE, BYTE_ORDER, OPCODE_TABLE and DIV_ZERO. What the spec's Step returns stands in the next state's
`outcome`, the model's own field (log entry 4); `Continued`, `Exited`, `Breakpoint` and `Faulted` are read there. -/

open Sys2Proof Sys2Proof.Machine

/-! ## The machine: reset, step, invariant -/

/-- 70_reset_and_hazards.md R340, R341: what Reset sets and what it keeps, and that creation is a reset. -/
def Obligations.ResetZeroesTheCoreAndKeepsParameters : Prop :=
  (∀ s : State,
    (∀ r, readReg (hostReset s) r = 0) ∧ (hostReset s).pc = 0 ∧ (∀ a, (hostReset s).mem.read a = 0) ∧
    (hostReset s).run = .running ∧ (hostReset s).cfg = s.cfg ∧ (hostReset s).output = s.output) ∧
  (∀ c : Config, hostReset (State.created c) = State.created c)

/-- The invariant holds at reset, and the reset state is its own Reset. It rests on the model's choice of MEM_SIZE
there (log entry 2) and of the last outcome (log entry 4). -/
def Obligations.ResetStateMeetsTheInvariant : Prop := Inv State.reset ∧ hostReset State.reset = State.reset

/-- Every step keeps the invariant: parameters in range, canonical memory inside the byte array, the halt
latch in agreement with the outcome. -/
def Obligations.StepKeepsTheInvariant : Prop :=
  ∀ s t : State, Inv s → step s = .next t → Inv t

/-- 40_cycle.md section 1: every step of every state answers a next state with one of the outcomes, and changes no
parameter. -/
def Obligations.StepAlwaysAnswersANextState : Prop :=
  ∀ s : State, ∃ t o, step s = .next t ∧ t.outcome = some o ∧ t.cfg = s.cfg

/-- 40_cycle.md section 1: a running core whose word at pc decodes to `i` executes `i` with pc advanced by 4, and `i`
is well formed under the table. -/
def Obligations.StepRunsTheDecodedInstruction : Prop :=
  ∀ (s : State) (i : Instr), Fetches s i → step s = exec i (advanced s) ∧ Instr.wf s.cfg.opcodes i

/-- 40_cycle.md R161: the fetch reads four bytes at pc as one word in the machine's byte order, at any
alignment, and advances pc; out of bounds it faults and pc keeps its value. -/
def Obligations.FetchReadsOneWordAndAdvancesPc : Prop :=
  ∀ s : State,
    (s.pc.toNat + 4 ≤ s.cfg.memSize → ∃ w, fetch s = .ok (w, s.setPc (s.pc + 4)) ∧
      w.toNat = match s.cfg.byteOrder with
        | .little => ∑ k ∈ Finset.range 4, (s.mem.read (s.pc.toNat + k)).toNat * 2 ^ (8 * k)
        | .big => ∑ k ∈ Finset.range 4, (s.mem.read (s.pc.toNat + k)).toNat * 2 ^ (8 * (3 - k))) ∧
    (s.cfg.memSize < s.pc.toNat + 4 →
      fetch s = .error (.outOfBounds s.pc 4 .fetch s.pc) ∧
      (s.run = .running → ∃ t, step s = .next t ∧ FaultTaken (.outOfBounds s.pc 4 .fetch s.pc) s t))

/-- 40_cycle.md R162: an opcode with no entry, or with an entry that has no itype, faults with pc advanced and
nothing else changed. -/
def Obligations.OpcodeWithoutItypeFaultsInvalid : Prop :=
  ∀ s : State, s.run = .running → s.pc.toNat + 4 ≤ s.cfg.memSize → OpcodeTable.wf s.cfg.opcodes →
    ((∀ e ∈ s.cfg.opcodes, e.1 ≠ opcodeField (wordAtPc s)) ∨
      (opcodeField (wordAtPc s), OpcodeSlot.noItype) ∈ s.cfg.opcodes) →
    ∃ t, step s = .next t ∧
      FaultTaken (.invalidOpcode (opcodeField (wordAtPc s)) (wordAtPc s) s.pc) (advanced s) t

/-- 30_encoding.md R114: an entry with an itype and no rule raises UnhandledOpcode; under the default table no word
does. -/
def Obligations.OpcodeWithoutRuleFaultsUnhandled : Prop :=
  (∀ (w : Word) (op : Opcode), decode defaultOpcodes w ≠ .error (.unhandledOpcode op)) ∧
  (∀ (s : State) (it : IType), s.run = .running → s.pc.toNat + 4 ≤ s.cfg.memSize →
    OpcodeTable.wf s.cfg.opcodes → (opcodeField (wordAtPc s), OpcodeSlot.noRule it) ∈ s.cfg.opcodes →
    ∃ t, step s = .next t ∧ FaultTaken (.unhandledOpcode (opcodeField (wordAtPc s)) s.pc) (advanced s) t)

/-- 40_cycle.md R167: a halted core returns its outcome again, changes nothing, and stays so for any number of
steps; a load does not leave the halted state, Reset does. -/
def Obligations.HaltedCoreRepeatsItsOutcome : Prop :=
  ∀ (s : State) (o : HaltOutcome), s.run = .halted o →
    (∀ k, ∃ t, Host.Core.run Sys2Proof.core k s = .next t ∧
      t = if k = 0 then s else s.setOutcome (some (match o with | .exited c => .exited c | .faulted f => .faulted f))) ∧
    (∀ img t, loadImage img s = some t → t.run = .halted o) ∧
    (hostReset s).run = .running

/-- 10_state.md R40: Exited and Faulted latch, Breakpoint and Continued do not, and a halted core keeps its latch. -/
def Obligations.OnlyExitAndFaultLatch : Prop :=
  ∀ s t : State, step s = .next t →
    (s.run = .running → t.run = match t.outcome with
      | some (.exited c) => .halted (.exited c)
      | some (.faulted f) => .halted (.faulted f)
      | _ => .running) ∧
    (∀ o, s.run = .halted o → t = s.setOutcome (some o.toStep))

/-- 40_cycle.md R166 and 60_exceptions.md R301: a fault changes nothing but pc (advanced, unless the fetch failed),
the halt state and the outcome, and records the pc of its fetch. -/
def Obligations.FaultsArePrecise : Prop :=
  ∀ (s t : State) (f : Fault), s.run = .running → step s = .next t → t.outcome = some (.faulted f) →
    f.fetchPc = s.pc ∧
    FaultTaken f (if s.pc.toNat + 4 ≤ s.cfg.memSize then s.setPc (s.pc + 4) else s) t

/-- 60_exceptions.md R303: a step of a running core raises the first check that fails, in the order fetch bounds,
decode, dispatch, the instruction's own check, and no fault where none fails. -/
def Obligations.FirstFailingCheckDecidesTheFault : Prop :=
  ∀ s t : State, s.run = .running → step s = .next t → faultOf t = stepFault s

/-- 40_cycle.md R164: pc after a step that continues or breaks. -/
def Obligations.PcAfterAStep : Prop :=
  ∀ (s t : State) (i : Instr), Fetches s i → step s = .next t →
    (t.outcome = some .continued ∨ t.outcome = some .breakpoint) →
    t.pc = match i with
      | .beq rs1 rs2 imm => if readReg s rs1 = readReg s rs2 then imm.signExtend 32 else s.pc + 4
      | .bne rs1 rs2 imm => if readReg s rs1 ≠ readReg s rs2 then imm.signExtend 32 else s.pc + 4
      | .blt rs1 rs2 imm => if (readReg s rs1).toInt < (readReg s rs2).toInt then imm.signExtend 32 else s.pc + 4
      | .bge rs1 rs2 imm => if (readReg s rs1).toInt ≥ (readReg s rs2).toInt then imm.signExtend 32 else s.pc + 4
      | .jal _ imm => imm.setWidth 32
      | .jalr _ rs1 imm => readReg s rs1 + imm.signExtend 32
      | _ => s.pc + 4

/-! ## What instructions leave alone -/

/-- 10_state.md section 1: the only register an instruction can change is the one it names as its destination. -/
def Obligations.OnlyTheDestinationRegisterChanges : Prop :=
  ∀ (i : Instr) (s t : State), exec i s = .next t → ∀ r, i.dest ≠ some r → readReg t r = readReg s r

/-- 20_memory.md section 1: of the instructions only the stores write memory, and only the bytes at their effective
address. -/
def Obligations.OnlyStoresWriteMemory : Prop :=
  ∀ (i : Instr) (s t : State), exec i s = .next t →
    match i with
    | .sb _ rs2 imm => SameMemOutside (readReg s rs2 + imm.signExtend 32).toNat 1 s t
    | .sh _ rs2 imm => SameMemOutside (readReg s rs2 + imm.signExtend 32).toNat 2 s t
    | .sw _ rs2 imm => SameMemOutside (readReg s rs2 + imm.signExtend 32).toNat 4 s t
    | _ => SameMem s t

/-- 20_memory.md section 4: output leaves the core only through the write system call, one event at its end. -/
def Obligations.OnlyTheWriteCallEmits : Prop :=
  ∀ (i : Instr) (s t : State), exec i s = .next t →
    t.output = s.output ∨
    (i = .ecall ∧ readReg s 17 = 64 ∧ t.outcome = some .continued ∧ ∃ e, t.output = s.output ++ [e])

/-- 00_scope.md section 6, 20_memory.md sections 1 and 2: over any number of steps the output channel only grows, by at
most one event a step, and the parameters stay. -/
def Obligations.OutputOnlyGrowsAlongARun : Prop :=
  ∀ (k : Nat) (s t : State), Host.Core.run Sys2Proof.core k s = .next t →
    s.output <+: t.output ∧ t.output.length ≤ s.output.length + k ∧ t.cfg = s.cfg

/-! ## Registers and memory -/

/-- 10_state.md R31, and the writes of section 1: index 0 reads 0 in every state, a write to it changes nothing, and
a write to another index changes that register alone. -/
def Obligations.RegisterReadsAndWrites : Prop :=
  ∀ (s : State) (r : RegIdx) (v : Word),
    readReg s 0 = 0 ∧ writeReg 0 v s = s ∧ RegWritten r v s (writeReg r v s) ∧
    (writeReg r v s).mem = s.mem ∧ (writeReg r v s).pc = s.pc ∧ (writeReg r v s).run = s.run ∧
    (writeReg r v s).output = s.output ∧ (writeReg r v s).cfg = s.cfg

/-- 20_memory.md R62, R63: an access in bounds reads or writes its bytes in the machine's byte order and no other
byte; out of bounds it raises OutOfBounds and there is no state with a byte written. -/
def Obligations.AccessesAreBoundedAndOrdered : Prop :=
  ∀ (s : State) (a : Word) (n v : Nat) (kind : AccessKind) (p : Word),
    (a.toNat + n ≤ s.cfg.memSize →
      memRead s a n kind p = .ok (match s.cfg.byteOrder with
        | .little => ∑ k ∈ Finset.range n, (s.mem.read (a.toNat + k)).toNat * 2 ^ (8 * k)
        | .big => ∑ k ∈ Finset.range n, (s.mem.read (a.toNat + k)).toNat * 2 ^ (8 * (n - 1 - k))) ∧
      ∃ m, memWrite s a n v p = .ok (s.setMem m) ∧ SameMemOutside a.toNat n s (s.setMem m) ∧
        ∀ k, k < n → m.read (a.toNat + k) = match s.cfg.byteOrder with
          | .little => BitVec.ofNat 8 (v / 2 ^ (8 * k))
          | .big => BitVec.ofNat 8 (v / 2 ^ (8 * (n - 1 - k)))) ∧
    (s.cfg.memSize < a.toNat + n →
      memRead s a n kind p = .error (.outOfBounds a n kind p) ∧
      memReadBytes s a n kind p = .error (.outOfBounds a n kind p) ∧
      memWrite s a n v p = .error (.outOfBounds a n .store p))

/-- 20_memory.md section 2: a datum read at the width it was written has the value written, under either byte order. -/
def Obligations.SameWidthAccessHidesTheByteOrder : Prop :=
  ∀ (s t : State) (a : Word) (n v : Nat) (kind : AccessKind) (p q : Word),
    memWrite s a n v p = .ok t → memRead t a n kind q = .ok (v % 2 ^ (8 * n))

/-- 20_memory.md R70: the bulk read gives the bytes of the range in address order, the empty list for a count of 0
up to MEM_SIZE, or OutOfBounds. -/
def Obligations.BulkReadGivesTheBytesInOrder : Prop :=
  ∀ (s : State) (a n : Word) (p : Word),
    (a.toNat + n.toNat ≤ s.cfg.memSize → ∃ bs, memReadBytes s a n.toNat .syscall p = .ok bs ∧
      bs.length = n.toNat ∧ ∀ k, k < n.toNat → bs[k]? = some (s.mem.read (a.toNat + k))) ∧
    (s.cfg.memSize < a.toNat + n.toNat →
      memReadBytes s a n.toNat .syscall p = .error (.outOfBounds a n.toNat .syscall p))

/-- The model's own form of memory (log entry 10): two canonical memories that read alike are the same data. -/
def Obligations.CanonicalMemoriesThatReadAlikeAreEqual : Prop :=
  ∀ m m' : Memory, Memory.wf m → Memory.wf m' → (∀ a, m.read a = m'.read a) → m = m'

/-- 70_reset_and_hazards.md R347: the launch state, and a reload without Reset. -/
def Obligations.LaunchAndReload : Prop :=
  (∀ (img : List Byte) (s : State), img.length ≤ s.cfg.memSize → ∃ t, launch img s = some t ∧
    (∀ r, readReg t r = 0) ∧ t.pc = 0 ∧ t.run = .running ∧
    (∀ a, t.mem.read a = if h : a < img.length then img[a] else 0)) ∧
  (∀ (img : List Byte) (s : State), img.length ≤ s.cfg.memSize → ∃ t, loadImage img s = some t ∧
    SameRegs s t ∧ t.pc = s.pc ∧ t.run = s.run ∧ t.output = s.output ∧ t.cfg = s.cfg ∧
    (∀ a, t.mem.read a = if h : a < img.length then img[a] else s.mem.read a)) ∧
  (∀ (img : List Byte) (s : State), s.cfg.memSize < img.length → loadImage img s = none)

/-- 70_reset_and_hazards.md R343: a step straight after Reset faults on the zero word, whatever the size and the
byte order of memory. -/
def Obligations.StepAfterResetFaultsOnTheZeroWord : Prop :=
  ∀ s : State, s.cfg.opcodes = defaultOpcodes → 4 ≤ s.cfg.memSize →
    ∃ t, step (hostReset s) = .next t ∧ FaultTaken (.invalidOpcode 0 0 0) ((hostReset s).setPc 4) t

/-! ## Encoding -/

/-- Decoding inverts encoding: under every table that is a map, for every instruction with every operand; and
the default table has a word for every instruction. -/
def Obligations.DecodeInvertsEncode : Prop :=
  (∀ (t : OpcodeTable) (i : Instr), OpcodeTable.wf t → Instr.wf t i →
    ∃ w, encode t i = some w ∧ decode t w = .ok i) ∧
  (∀ i : Instr, ∃ w, encode defaultOpcodes i = some w ∧ decode defaultOpcodes w = .ok i)

/-- 30_encoding.md R111: the packing of each format, the truncation law, and what a decode and encode do to the
unused bits. -/
def Obligations.EncodingTruncatesAndDecodesBack : Prop :=
  ∀ (op rd rs1 rs2 imm : Int),
    (encodeFields .R op rd rs1 rs2 imm).toNat = (op % 2 ^ 7 + rd % 2 ^ 5 * 2 ^ 7 + rs1 % 2 ^ 5 * 2 ^ 12 + rs2 % 2 ^ 5 * 2 ^ 17 : Int) ∧
    (encodeFields .I op rd rs1 rs2 imm).toNat = (op % 2 ^ 7 + rd % 2 ^ 5 * 2 ^ 7 + rs1 % 2 ^ 5 * 2 ^ 12 + imm % 2 ^ 15 * 2 ^ 17 : Int) ∧
    (encodeFields .S op rd rs1 rs2 imm).toNat = (op % 2 ^ 7 + rs1 % 2 ^ 5 * 2 ^ 7 + rs2 % 2 ^ 5 * 2 ^ 12 + imm % 2 ^ 15 * 2 ^ 17 : Int) ∧
    (encodeFields .U op rd rs1 rs2 imm).toNat = (op % 2 ^ 7 + rd % 2 ^ 5 * 2 ^ 7 + imm % 2 ^ 20 * 2 ^ 12 : Int) ∧
    (encodeFields .E op rd rs1 rs2 imm).toNat = (op % 2 ^ 7 : Int) ∧
    (∀ (t : OpcodeTable) (m : Mnemonic), slotOf t (BitVec.ofInt 7 op) = .instr m →
      decodeRecord t (encodeFields m.itype op rd rs1 rs2 imm) = .ok (match m.itype with
        | .R => ⟨.R, BitVec.ofInt 7 op, BitVec.ofInt 5 rd, BitVec.ofInt 5 rs1, BitVec.ofInt 5 rs2, 0⟩
        | .I => ⟨.I, BitVec.ofInt 7 op, BitVec.ofInt 5 rd, BitVec.ofInt 5 rs1, 0, (BitVec.ofInt 15 imm).setWidth 20⟩
        | .S => ⟨.S, BitVec.ofInt 7 op, 0, BitVec.ofInt 5 rs1, BitVec.ofInt 5 rs2, (BitVec.ofInt 15 imm).setWidth 20⟩
        | .U => ⟨.U, BitVec.ofInt 7 op, BitVec.ofInt 5 rd, 0, 0, BitVec.ofInt 20 imm⟩
        | .E => ⟨.E, BitVec.ofInt 7 op, 0, 0, 0, 0⟩)) ∧
    (∀ w : Word, encodeRecord (decodeAs .R w) = w &&& 0x003FFFFF ∧ encodeRecord (decodeAs .I w) = w ∧
      encodeRecord (decodeAs .S w) = w ∧ encodeRecord (decodeAs .U w) = w ∧
      encodeRecord (decodeAs .E w) = w &&& 0x0000007F)

/-- 30_encoding.md R113: under the default table exactly the opcodes 0x00 and 0x24 to 0x7F are invalid. -/
def Obligations.ReservedOpcodesAreExactlyTheInvalidOnes : Prop :=
  ∀ w : Word,
    ((opcodeField w = 0 ∨ 0x24 ≤ (opcodeField w).toNat) →
      decode defaultOpcodes w = .error (.invalidOpcode (opcodeField w) w)) ∧
    (1 ≤ (opcodeField w).toNat ∧ (opcodeField w).toNat ≤ 0x23 → ∃ i, decode defaultOpcodes w = .ok i)

/-- 30_encoding.md R115: unused bits are ignored, and inside a valid opcode every field value is legal. -/
def Obligations.UnusedBitsAreIgnored : Prop :=
  ∀ (t : OpcodeTable) (w : Word) (m : Mnemonic), slotOf t (opcodeField w) = .instr m →
    (m.itype = .R → decode t w = decode t (w &&& 0x003FFFFF)) ∧
    (m.itype = .E → decode t w = decode t (w &&& 0x0000007F)) ∧
    ∃ i, decode t w = .ok i ∧ i.mnemonic = m

/-- Words written out from the spec's encodings decode to the instructions they stand for, one of each format. -/
def Obligations.WordsWrittenOutDecode : Prop :=
  decode defaultOpcodes 0x00041181 = .ok (.add 3 1 2) ∧
  decode defaultOpcodes 0xFFFE118D = .ok (.addi 3 1 0x7FFF) ∧
  decode defaultOpcodes 0x0000251B = .ok (.sw 10 2 0) ∧
  decode defaultOpcodes 0x0400209C = .ok (.beq 1 2 0x200) ∧
  decode defaultOpcodes 0x002000A1 = .ok (.jal 1 0x200) ∧
  decode defaultOpcodes 0xFFFFFFA2 = .ok .ecall

/-- 30_encoding.md section 5, 70_reset_and_hazards.md section 2: patching the word of an instruction that has an
immediate gives the word of the same fields with the immediate replaced, truncated to its width; the word of an
instruction without one is refused. -/
def Obligations.PatchReplacesTheImmediateAlone : Prop :=
  ∀ (t : OpcodeTable) (w : Word) (m : Mnemonic) (v : Int), slotOf t (opcodeField w) = .instr m →
    (m.itype = .I ∨ m.itype = .S → ∃ w', patchWord t w v = .ok w' ∧
      w'.toNat = (w.toNat % 2 ^ 17 + v % 2 ^ 15 * 2 ^ 17 : Int)) ∧
    (m.itype = .U → ∃ w', patchWord t w v = .ok w' ∧ w'.toNat = (w.toNat % 2 ^ 12 + v % 2 ^ 20 * 2 ^ 12 : Int)) ∧
    (m.itype = .R ∨ m.itype = .E → patchWord t w v = .error .noImmediateField)

/-- 30_encoding.md section 5: decimal and hexadecimal immediates, quoted characters and their escapes, the leading minus,
and the truncation to the field's width. (That the quote is the single quote, and
that a quoted character or escape has its code as its value, are the model's choices: log entry 14.) -/
def Obligations.ImmediateOperandsHaveTheirValues : Prop :=
  (∀ ds : List Nat, ds ≠ [] → (∀ d ∈ ds, d < 10) →
    immediateOfToken (ds.map Nat.digitChar) = some (Nat.ofDigits 10 ds.reverse : Nat)) ∧
  (∀ ds : List Nat, ds ≠ [] → (∀ d ∈ ds, d < 16) →
    immediateOfToken ('0' :: 'x' :: ds.map Nat.digitChar) = some (Nat.ofDigits 16 ds.reverse : Nat)) ∧
  (∀ c : Char, c.toNat ≠ 39 → c.toNat ≠ 92 →
    immediateOfToken [Char.ofNat 39, c, Char.ofNat 39] = some (c.toNat : Int)) ∧
  immediateOfToken [Char.ofNat 39, Char.ofNat 92, 'n', Char.ofNat 39] = some 10 ∧
  immediateOfToken [Char.ofNat 39, Char.ofNat 92, 't', Char.ofNat 39] = some 9 ∧
  immediateOfToken [Char.ofNat 39, Char.ofNat 92, 'r', Char.ofNat 39] = some 13 ∧
  (∀ (tok : List Char) (v : Int), tok.head? ≠ some '-' → immediateOfToken tok = some v →
    immediateOfToken ('-' :: tok) = some (-v)) ∧
  (∀ (width : Nat) (tok : List Char) (v : Int), immediateOfToken tok = some v →
    ∃ f, immediateField width tok = some f ∧ (f.toNat : Int) = v % 2 ^ width)

/-! ## ALU instructions -/

/-- 41_alu.md R201, R202, R203: sum, difference and low product mod 2^32, the same for the signed and the unsigned
reading. -/
def Obligations.AddSubMulWrap : Prop :=
  EncodedR 0x01 .add ∧ EncodedR 0x02 .sub ∧ EncodedR 0x03 .mul ∧
  (∀ rd rs1 rs2 s, ∃ t v, exec (.add rd rs1 rs2) s = .next t ∧ OnlyWrites rd v s t ∧
    v = BitVec.ofNat 32 ((readReg s rs1).toNat + (readReg s rs2).toNat) ∧
    v = BitVec.ofInt 32 ((readReg s rs1).toInt + (readReg s rs2).toInt)) ∧
  (∀ rd rs1 rs2 s, ∃ t v, exec (.sub rd rs1 rs2) s = .next t ∧ OnlyWrites rd v s t ∧
    v = BitVec.ofInt 32 ((readReg s rs1).toNat - (readReg s rs2).toNat) ∧
    v = BitVec.ofInt 32 ((readReg s rs1).toInt - (readReg s rs2).toInt)) ∧
  (∀ rd rs1 rs2 s, ∃ t v, exec (.mul rd rs1 rs2) s = .next t ∧ OnlyWrites rd v s t ∧
    v = BitVec.ofNat 32 ((readReg s rs1).toNat * (readReg s rs2).toNat) ∧
    v = BitVec.ofInt 32 ((readReg s rs1).toInt * (readReg s rs2).toInt))

/-- 41_alu.md R213, R214: sum and difference with the sign-extended immediate, mod 2^32. -/
def Obligations.AddiSubiWrap : Prop :=
  EncodedI 0x0D .addi ∧ EncodedI 0x0E .subi ∧
  (∀ rd rs1 imm s, ∃ t, exec (.addi rd rs1 imm) s = .next t ∧
    OnlyWrites rd (BitVec.ofInt 32 ((readReg s rs1).toInt + imm.toInt)) s t) ∧
  (∀ rd rs1 imm s, ∃ t, exec (.subi rd rs1 imm) s = .next t ∧
    OnlyWrites rd (BitVec.ofInt 32 ((readReg s rs1).toInt - imm.toInt)) s t)

/-- 41_alu.md R206, R207, R208, R215, R216, R217: the bitwise operations; immediates are sign-extended. -/
def Obligations.BitwiseOperations : Prop :=
  EncodedR 0x06 .and ∧ EncodedR 0x07 .or ∧ EncodedR 0x08 .xor ∧
  EncodedI 0x0F .andi ∧ EncodedI 0x10 .ori ∧ EncodedI 0x11 .xori ∧
  (∀ rd rs1 rs2 s, ∃ t, exec (.and rd rs1 rs2) s = .next t ∧ OnlyWrites rd (readReg s rs1 &&& readReg s rs2) s t) ∧
  (∀ rd rs1 rs2 s, ∃ t, exec (.or rd rs1 rs2) s = .next t ∧ OnlyWrites rd (readReg s rs1 ||| readReg s rs2) s t) ∧
  (∀ rd rs1 rs2 s, ∃ t, exec (.xor rd rs1 rs2) s = .next t ∧ OnlyWrites rd (readReg s rs1 ^^^ readReg s rs2) s t) ∧
  (∀ rd rs1 imm s, ∃ t, exec (.andi rd rs1 imm) s = .next t ∧
    OnlyWrites rd (readReg s rs1 &&& BitVec.ofInt 32 imm.toInt) s t) ∧
  (∀ rd rs1 imm s, ∃ t, exec (.ori rd rs1 imm) s = .next t ∧
    OnlyWrites rd (readReg s rs1 ||| BitVec.ofInt 32 imm.toInt) s t) ∧
  (∀ rd rs1 imm s, ∃ t, exec (.xori rd rs1 imm) s = .next t ∧
    OnlyWrites rd (readReg s rs1 ^^^ BitVec.ofInt 32 imm.toInt) s t)

/-- 41_alu.md R209, R210, R211, R218, R219, R220: the shifts by the low 5 bits of the shift operand, as products and floor
quotients by a power of 2. -/
def Obligations.ShiftsByTheLowFiveBits : Prop :=
  EncodedR 0x09 .sll ∧ EncodedR 0x0A .srl ∧ EncodedR 0x0B .sra ∧
  EncodedI 0x12 .slli ∧ EncodedI 0x13 .srli ∧ EncodedI 0x14 .srai ∧
  (∀ rd rs1 rs2 s, ∃ t, exec (.sll rd rs1 rs2) s = .next t ∧
    OnlyWrites rd (BitVec.ofNat 32 ((readReg s rs1).toNat * 2 ^ ((readReg s rs2).toNat % 32))) s t) ∧
  (∀ rd rs1 rs2 s, ∃ t, exec (.srl rd rs1 rs2) s = .next t ∧
    OnlyWrites rd (BitVec.ofNat 32 ((readReg s rs1).toNat / 2 ^ ((readReg s rs2).toNat % 32))) s t) ∧
  (∀ rd rs1 rs2 s, ∃ t, exec (.sra rd rs1 rs2) s = .next t ∧
    OnlyWrites rd (BitVec.ofInt 32 ⌊((readReg s rs1).toInt : ℚ) / 2 ^ ((readReg s rs2).toNat % 32)⌋) s t) ∧
  (∀ rd rs1 imm s, ∃ t, exec (.slli rd rs1 imm) s = .next t ∧
    OnlyWrites rd (BitVec.ofNat 32 ((readReg s rs1).toNat * 2 ^ (imm.toNat % 32))) s t) ∧
  (∀ rd rs1 imm s, ∃ t, exec (.srli rd rs1 imm) s = .next t ∧
    OnlyWrites rd (BitVec.ofNat 32 ((readReg s rs1).toNat / 2 ^ (imm.toNat % 32))) s t) ∧
  (∀ rd rs1 imm s, ∃ t, exec (.srai rd rs1 imm) s = .next t ∧
    OnlyWrites rd (BitVec.ofInt 32 ⌊((readReg s rs1).toInt : ℚ) / 2 ^ (imm.toNat % 32)⌋) s t)

/-- 41_alu.md R212, R221: signed less-than as 0 or 1. -/
def Obligations.SetIfLessSigned : Prop :=
  EncodedR 0x0C .slt ∧ EncodedI 0x15 .slti ∧
  (∀ rd rs1 rs2 s, ∃ t, exec (.slt rd rs1 rs2) s = .next t ∧
    OnlyWrites rd (if (readReg s rs1).toInt < (readReg s rs2).toInt then 1 else 0) s t) ∧
  (∀ rd rs1 imm s, ∃ t, exec (.slti rd rs1 imm) s = .next t ∧
    OnlyWrites rd (if (readReg s rs1).toInt < imm.toInt then 1 else 0) s t)

/-- 41_alu.md R204: DIV, with `q = sign(a*b) * floor(|a| / |b|)`. -/
def Obligations.DivTruncatesTowardZero : Prop :=
  EncodedR 0x04 .div ∧
  ∀ (rd rs1 rs2 : RegIdx) (s : State) (a b : Int), a = (readReg s rs1).toInt → b = (readReg s rs2).toInt →
    (b = 0 → s.cfg.divZero = .fault →
      ∃ t, exec (.div rd rs1 rs2) s = .next t ∧ FaultTaken (.divideByZero (s.pc - 4)) s t) ∧
    (b = 0 → s.cfg.divZero = .sentinel →
      ∃ t, exec (.div rd rs1 rs2) s = .next t ∧ OnlyWrites rd 0xFFFFFFFF s t) ∧
    (a = -2 ^ 31 ∧ b = -1 → ∃ t, exec (.div rd rs1 rs2) s = .next t ∧ OnlyWrites rd 0x80000000 s t) ∧
    (b ≠ 0 ∧ ¬(a = -2 ^ 31 ∧ b = -1) → ∃ t, exec (.div rd rs1 rs2) s = .next t ∧
      OnlyWrites rd (BitVec.ofInt 32 ((a * b).sign * (a.natAbs / b.natAbs : Nat))) s t)

/-- 41_alu.md R205: REM, `a - b * q` with the quotient of R204. -/
def Obligations.RemComplementsDiv : Prop :=
  EncodedR 0x05 .rem ∧
  ∀ (rd rs1 rs2 : RegIdx) (s : State) (a b : Int), a = (readReg s rs1).toInt → b = (readReg s rs2).toInt →
    (b = 0 → s.cfg.divZero = .fault →
      ∃ t, exec (.rem rd rs1 rs2) s = .next t ∧ FaultTaken (.divideByZero (s.pc - 4)) s t) ∧
    (b = 0 → s.cfg.divZero = .sentinel →
      ∃ t, exec (.rem rd rs1 rs2) s = .next t ∧ OnlyWrites rd (readReg s rs1) s t) ∧
    (a = -2 ^ 31 ∧ b = -1 → ∃ t, exec (.rem rd rs1 rs2) s = .next t ∧ OnlyWrites rd 0 s t) ∧
    (b ≠ 0 ∧ ¬(a = -2 ^ 31 ∧ b = -1) → ∃ t, exec (.rem rd rs1 rs2) s = .next t ∧
      OnlyWrites rd (BitVec.ofInt 32 (a - b * ((a * b).sign * (a.natAbs / b.natAbs : Nat)))) s t)

/-- 41_alu.md section 1: for a divisor other than 0, the quotient and remainder satisfy the division identity, as integers
but for the overflowing pair and as words for every pair; the remainder is smaller than the divisor and takes the
sign of the dividend. (Log entry 11: the spec's integer identity fails at -2^31, -1 by its own values.) -/
def Obligations.DivisionIdentity : Prop :=
  ∀ (p : DivZero) (a b : Word), b ≠ 0 → ∃ q r, aluDiv p a b = some q ∧ aluRem p a b = some r ∧
    a = q * b + r ∧
    (¬(a.toInt = -2 ^ 31 ∧ b.toInt = -1) → a.toInt = q.toInt * b.toInt + r.toInt) ∧
    r.toInt.natAbs < b.toInt.natAbs ∧ (r.toInt = 0 ∨ r.toInt.sign = a.toInt.sign)

/-! ## Loads and stores -/

/-- 42_load_store.md R241, R242, R243: the loads, in bounds and out of bounds. -/
def Obligations.LoadsExtendTheBytesRead : Prop :=
  EncodedI 0x16 .lb ∧ EncodedI 0x17 .lh ∧ EncodedI 0x18 .lw ∧
  ∀ (rd rs1 : RegIdx) (imm : BitVec 15) (s : State) (ea : Word), ea = readReg s rs1 + imm.signExtend 32 →
    (ea.toNat + 1 ≤ s.cfg.memSize → ∃ t, exec (.lb rd rs1 imm) s = .next t ∧
      OnlyWrites rd ((s.mem.read ea.toNat).signExtend 32) s t) ∧
    (s.cfg.memSize < ea.toNat + 1 → ∃ t, exec (.lb rd rs1 imm) s = .next t ∧
      FaultTaken (.outOfBounds ea 1 .load (s.pc - 4)) s t) ∧
    (ea.toNat + 2 ≤ s.cfg.memSize → ∃ t, exec (.lh rd rs1 imm) s = .next t ∧
      OnlyWrites rd (match s.cfg.byteOrder with
        | .little => (s.mem.read (ea.toNat + 1) ++ s.mem.read ea.toNat).signExtend 32
        | .big => (s.mem.read ea.toNat ++ s.mem.read (ea.toNat + 1)).signExtend 32) s t) ∧
    (s.cfg.memSize < ea.toNat + 2 → ∃ t, exec (.lh rd rs1 imm) s = .next t ∧
      FaultTaken (.outOfBounds ea 2 .load (s.pc - 4)) s t) ∧
    (ea.toNat + 4 ≤ s.cfg.memSize → ∃ t, exec (.lw rd rs1 imm) s = .next t ∧
      OnlyWrites rd (match s.cfg.byteOrder with
        | .little => (s.mem.read (ea.toNat + 3) ++ s.mem.read (ea.toNat + 2) ++
            s.mem.read (ea.toNat + 1) ++ s.mem.read ea.toNat : BitVec 32)
        | .big => (s.mem.read ea.toNat ++ s.mem.read (ea.toNat + 1) ++
            s.mem.read (ea.toNat + 2) ++ s.mem.read (ea.toNat + 3) : BitVec 32)) s t) ∧
    (s.cfg.memSize < ea.toNat + 4 → ∃ t, exec (.lw rd rs1 imm) s = .next t ∧
      FaultTaken (.outOfBounds ea 4 .load (s.pc - 4)) s t)

/-- 42_load_store.md R244, R245, R246: the stores, in bounds and out of bounds, with their frame. -/
def Obligations.StoresWriteTheLowBytes : Prop :=
  EncodedI 0x19 .sb ∧ EncodedI 0x1A .sh ∧ EncodedI 0x1B .sw ∧
  ∀ (rs1 rs2 : RegIdx) (imm : BitVec 15) (s : State) (ea : Word), ea = readReg s rs2 + imm.signExtend 32 →
    (ea.toNat + 1 ≤ s.cfg.memSize → ∃ t, exec (.sb rs1 rs2 imm) s = .next t ∧
      t.mem.read ea.toNat = (readReg s rs1).extractLsb' 0 8 ∧
      SameMemOutside ea.toNat 1 s t ∧ SameRegs s t ∧ t.pc = s.pc ∧ Continued s t) ∧
    (s.cfg.memSize < ea.toNat + 1 → ∃ t, exec (.sb rs1 rs2 imm) s = .next t ∧
      FaultTaken (.outOfBounds ea 1 .store (s.pc - 4)) s t) ∧
    (ea.toNat + 2 ≤ s.cfg.memSize → ∃ t, exec (.sh rs1 rs2 imm) s = .next t ∧
      (∀ k, k < 2 → t.mem.read (ea.toNat + k) = match s.cfg.byteOrder with
        | .little => (readReg s rs1).extractLsb' (8 * k) 8
        | .big => (readReg s rs1).extractLsb' (8 * (1 - k)) 8) ∧
      SameMemOutside ea.toNat 2 s t ∧ SameRegs s t ∧ t.pc = s.pc ∧ Continued s t) ∧
    (s.cfg.memSize < ea.toNat + 2 → ∃ t, exec (.sh rs1 rs2 imm) s = .next t ∧
      FaultTaken (.outOfBounds ea 2 .store (s.pc - 4)) s t) ∧
    (ea.toNat + 4 ≤ s.cfg.memSize → ∃ t, exec (.sw rs1 rs2 imm) s = .next t ∧
      (∀ k, k < 4 → t.mem.read (ea.toNat + k) = match s.cfg.byteOrder with
        | .little => (readReg s rs1).extractLsb' (8 * k) 8
        | .big => (readReg s rs1).extractLsb' (8 * (3 - k)) 8) ∧
      SameMemOutside ea.toNat 4 s t ∧ SameRegs s t ∧ t.pc = s.pc ∧ Continued s t) ∧
    (s.cfg.memSize < ea.toNat + 4 → ∃ t, exec (.sw rs1 rs2 imm) s = .next t ∧
      FaultTaken (.outOfBounds ea 4 .store (s.pc - 4)) s t)

/-- 20_memory.md section 6: a word stored at the next instruction's address is the word the next fetch reads, under
either byte order. -/
def Obligations.NextFetchSeesTheStore : Prop :=
  ∀ (s t : State) (rs1 rs2 : RegIdx) (imm : BitVec 15), exec (.sw rs1 rs2 imm) s = .next t →
    t.outcome = some .continued → readReg s rs2 + imm.signExtend 32 = s.pc →
    fetch t = .ok (readReg s rs1, t.setPc (s.pc + 4))

/-! ## Branches and jumps -/

/-- 43_control.md R260 to R264: the branches. -/
def Obligations.BranchesCompareAndGoToTheImmediate : Prop :=
  EncodedI 0x1C .beq ∧ EncodedI 0x1D .bne ∧ EncodedI 0x1E .blt ∧ EncodedI 0x1F .bge ∧
  ∀ (rs1 rs2 : RegIdx) (imm : BitVec 15) (s : State) (a b : Word), a = readReg s rs1 → b = readReg s rs2 →
    (∃ t, exec (.beq rs1 rs2 imm) s = .next t ∧ t.pc = (if a = b then imm.signExtend 32 else s.pc) ∧
      SameRegs s t ∧ SameMem s t ∧ Continued s t) ∧
    (∃ t, exec (.bne rs1 rs2 imm) s = .next t ∧ t.pc = (if a ≠ b then imm.signExtend 32 else s.pc) ∧
      SameRegs s t ∧ SameMem s t ∧ Continued s t) ∧
    (∃ t, exec (.blt rs1 rs2 imm) s = .next t ∧ t.pc = (if a.toInt < b.toInt then imm.signExtend 32 else s.pc) ∧
      SameRegs s t ∧ SameMem s t ∧ Continued s t) ∧
    (∃ t, exec (.bge rs1 rs2 imm) s = .next t ∧ t.pc = (if a.toInt ≥ b.toInt then imm.signExtend 32 else s.pc) ∧
      SameRegs s t ∧ SameMem s t ∧ Continued s t)

/-- 43_control.md R265, R266: the jumps, with the link and the target taken from the registers before the write. -/
def Obligations.JumpsLinkTheNextInstruction : Prop :=
  EncodedU 0x21 .jal ∧ EncodedI 0x20 .jalr ∧
  (∀ rd imm s, ∃ t, exec (.jal rd imm) s = .next t ∧ RegWritten rd s.pc s t ∧ t.pc = imm.setWidth 32 ∧
    SameMem s t ∧ Continued s t) ∧
  (∀ rd rs1 imm s, ∃ t, exec (.jalr rd rs1 imm) s = .next t ∧ RegWritten rd s.pc s t ∧
    t.pc = readReg s rs1 + imm.signExtend 32 ∧ SameMem s t ∧ Continued s t)

/-- 43_control.md section 1: a jump or branch to an address whose fetch is out of bounds completes, and the next step
faults with pc at the target; a taken BEQ, BNE, BLT or BGE whose immediate has bit 14 set always does. -/
def Obligations.BadTargetFaultsAtTheNextFetch : Prop :=
  (∀ (i : Instr) (s t : State),
    i.mnemonic ∈ [Mnemonic.beq, .bne, .blt, .bge, .jal, .jalr] → s.run = .running → exec i s = .next t →
    s.cfg.memSize < t.pc.toNat + 4 →
    t.outcome = some .continued ∧
    ∃ u, step t = .next u ∧ FaultTaken (.outOfBounds t.pc 4 .fetch t.pc) t u) ∧
  (∀ (i : Instr) (rs1 rs2 : RegIdx) (imm : BitVec 15) (s : State) (a b : Word),
    a = readReg s rs1 → b = readReg s rs2 → Config.wf s.cfg → s.run = .running → 2 ^ 14 ≤ imm.toNat →
    (i = .beq rs1 rs2 imm ∧ a = b) ∨ (i = .bne rs1 rs2 imm ∧ a ≠ b) ∨
      (i = .blt rs1 rs2 imm ∧ a.toInt < b.toInt) ∨ (i = .bge rs1 rs2 imm ∧ a.toInt ≥ b.toInt) →
    ∃ t u, exec i s = .next t ∧ t.outcome = some .continued ∧ step t = .next u ∧
      FaultTaken (.outOfBounds (imm.signExtend 32) 4 .fetch (imm.signExtend 32)) t u)

/-! ## System calls and breakpoint -/

/-- 44_system.md R282: the write service. -/
def Obligations.WriteCallEmitsTheBytes : Prop :=
  ∀ (s : State) (addr n : Word), readReg s 17 = 64 → addr = readReg s 11 → n = readReg s 12 →
    (∀ fd : Fd, readReg s 10 = fd.number → addr.toNat + n.toNat ≤ s.cfg.memSize →
      ∃ t bs, exec .ecall s = .next t ∧ t.output = s.output ++ [⟨fd, bs⟩] ∧ bs.length = n.toNat ∧
        (∀ k, k < n.toNat → bs[k]? = some (s.mem.read (addr.toNat + k))) ∧
        SameRegs s t ∧ SameMem s t ∧ t.pc = s.pc ∧ t.run = s.run ∧ t.cfg = s.cfg ∧
        t.outcome = some .continued) ∧
    (readReg s 10 ≠ 1 ∧ readReg s 10 ≠ 2 →
      ∃ t, exec .ecall s = .next t ∧ FaultTaken (.invalidSyscallArgument (readReg s 10) (s.pc - 4)) s t) ∧
    ((readReg s 10 = 1 ∨ readReg s 10 = 2) → s.cfg.memSize < addr.toNat + n.toNat →
      ∃ t, exec .ecall s = .next t ∧ FaultTaken (.outOfBounds addr n.toNat .syscall (s.pc - 4)) s t)

/-- 44_system.md R283, R284: the exit service ends the run with the full 32-bit code; any other value of a7 faults. -/
def Obligations.ExitCallHaltsAndOtherCallsFault : Prop :=
  EncodedE 0x22 .ecall ∧
  (∀ s : State, readReg s 17 = 93 → ∃ t, exec .ecall s = .next t ∧
    t.run = .halted (.exited (readReg s 10)) ∧ t.outcome = some (.exited (readReg s 10)) ∧
    SameRegs s t ∧ SameMem s t ∧ t.pc = s.pc ∧ t.cfg = s.cfg ∧ t.output = s.output) ∧
  (∀ s : State, readReg s 17 ≠ 64 ∧ readReg s 17 ≠ 93 → ∃ t, exec .ecall s = .next t ∧
    FaultTaken (.unhandledSyscall (readReg s 17) (s.pc - 4)) s t)

/-- 44_system.md R285, 40_cycle.md R168: EBREAK returns Breakpoint and changes nothing; a step that runs it leaves the
core running at the next instruction. -/
def Obligations.BreakpointDoesNotHalt : Prop :=
  EncodedE 0x23 .ebreak ∧
  (∀ s : State, ∃ t, exec .ebreak s = .next t ∧ t.outcome = some .breakpoint ∧ t.run = s.run ∧
    SameRegs s t ∧ SameMem s t ∧ t.pc = s.pc ∧ t.cfg = s.cfg ∧ t.output = s.output) ∧
  (∀ (s : State) (i : Instr), Fetches s .ebreak → Fetches (advanced s) i →
    ∃ t, step s = .next t ∧ t.outcome = some .breakpoint ∧ t.run = .running ∧ t.pc = s.pc + 4 ∧
      step t = exec i (advanced t))
end

