-- ==== Sys2Proof/Laws/Encoding.lean ====
section
/-! SUPPORT. The laws of the encoding: the slots of the opcode table, what decode answers by slot, a field placed in a
word and read back, and the record of an encoded word. -/

namespace Sys2Proof

/-! ### The opcode table -/

/-- A slot that is not `noItype` is an entry of the table. -/
theorem mem_of_slotOf {t : OpcodeTable} {op : Opcode} {e : OpcodeSlot} (h : slotOf t op = e)
    (he : e ≠ .noItype) : (op, e) ∈ t := by
  induction t with
  | nil => exact absurd h.symm he
  | cons c t ih =>
    obtain ⟨k, f⟩ := c
    unfold slotOf at h
    split at h
    · subst h; simp_all
    · exact List.mem_cons_of_mem _ (ih h)

/-- In a table that is a map, an entry is its opcode's slot. -/
theorem slotOf_of_mem {t : OpcodeTable} {op : Opcode} {e : OpcodeSlot} (hw : OpcodeTable.wf t)
    (h : (op, e) ∈ t) : slotOf t op = e := by
  induction t with
  | nil => simp at h
  | cons c t ih =>
    obtain ⟨k, f⟩ := c
    have hw' : k ∉ t.map Prod.fst ∧ (t.map Prod.fst).Nodup := by simpa [OpcodeTable.wf] using hw
    unfold slotOf
    rcases List.mem_cons.mp h with h | h
    · cases h; simp
    · rw [if_neg]
      · exact ih hw'.2 h
      · rintro rfl
        exact hw'.1 (List.mem_map.mpr ⟨_, h, rfl⟩)

/-- An absent opcode has no itype. -/
theorem slotOf_of_absent {t : OpcodeTable} {op : Opcode} (h : ∀ e ∈ t, e.1 ≠ op) :
    slotOf t op = .noItype := by
  induction t with
  | nil => rfl
  | cons c t ih =>
    unfold slotOf
    rw [if_neg (h c (by simp))]
    exact ih fun e he => h e (by simp [he])

/-! ### Decoding by slot -/

@[simp] theorem opcode_decodeAs (it : IType) (w : Word) : (decodeAs it w).opcode = opcodeField w := by
  cases it <;> rfl

@[simp] theorem mnemonic_instrOf (m : Mnemonic) (d : Decoded) : (instrOf m d).mnemonic = m := by
  cases m <;> rfl

/-- A word whose opcode names an instruction decodes to it, with the fields of its format. -/
theorem decode_of_instr {t : OpcodeTable} {w : Word} {m : Mnemonic}
    (h : slotOf t (opcodeField w) = .instr m) : decode t w = .ok (instrOf m (decodeAs m.itype w)) := by
  simp [decode, decodeRecord, h]

/-- A word whose opcode has no itype is invalid (30_encoding.md R110). -/
theorem decode_of_noItype {t : OpcodeTable} {w : Word} (h : slotOf t (opcodeField w) = .noItype) :
    decode t w = .error (.invalidOpcode (opcodeField w) w) := by
  simp [decode, decodeRecord, h]

/-- A word whose opcode has an itype and no rule is unhandled (30_encoding.md R114). -/
theorem decode_of_noRule {t : OpcodeTable} {w : Word} {it : IType}
    (h : slotOf t (opcodeField w) = .noRule it) :
    decode t w = .error (.unhandledOpcode (opcodeField w)) := by
  simp [decode, decodeRecord, h]

/-- A word that decodes has its instruction's mnemonic in its opcode's slot. -/
theorem slotOf_of_decode {t : OpcodeTable} {w : Word} {i : Instr} (h : decode t w = .ok i) :
    slotOf t (opcodeField w) = .instr i.mnemonic := by
  cases hs : slotOf t (opcodeField w) with
  | noItype => rw [decode_of_noItype hs] at h; cases h
  | noRule => rw [decode_of_noRule hs] at h; cases h
  | instr m => rw [decode_of_instr hs] at h; cases h; rw [mnemonic_instrOf]

/-! ### Fields of a word -/

theorem getLsbD_placeField {n : Nat} (v : BitVec n) (p i : Nat) :
    (placeField v p).getLsbD i = (decide (i < 32) && decide (p ≤ i) && v.getLsbD (i - p)) := by
  unfold placeField
  rw [BitVec.getLsbD_shiftLeft, BitVec.getLsbD_setWidth]
  by_cases h1 : i < 32 <;> by_cases h2 : p ≤ i
  · have h3 : ¬ i < p := by omega
    have h4 : i - p < 32 := by omega
    simp [h1, h2, h3, h4]
  · have h3 : i < p := by omega
    simp [h1, h2, h3]
  · simp [h1]
  · simp [h1]

/-- Reading a field where it was placed. -/
theorem extract_placeField_hit {n : Nat} (v : BitVec n) (p : Nat) (h : p + n ≤ 32) :
    (placeField v p).extractLsb' p n = v := by
  ext i hi
  rw [BitVec.getElem_extractLsb', getLsbD_placeField]
  have : p + i < 32 := by omega
  simp [this, hi]

/-- Reading a field clear of where another was placed. -/
theorem extract_placeField_miss {n : Nat} (v : BitVec n) (p q m : Nat) (h : q + m ≤ p ∨ p + n ≤ q) :
    (placeField v p).extractLsb' q m = 0 := by
  ext i hi
  rw [BitVec.getElem_extractLsb', getLsbD_placeField]
  rcases h with h | h
  · have : ¬ p ≤ q + i := by omega
    simp [this]
  · rw [BitVec.getLsbD_of_ge v _ (by omega)]
    simp

/-- The value of a placed field. -/
theorem toNat_placeField {n : Nat} (v : BitVec n) (p : Nat) (h : p + n ≤ 32) :
    (placeField v p).toNat = v.toNat * 2 ^ p := by
  unfold placeField
  have hv := v.isLt
  have h1 : 2 ^ n ≤ 2 ^ (32 - p) := Nat.pow_le_pow_right (by norm_num) (by omega)
  have h2 : 2 ^ n ≤ 2 ^ 32 := Nat.pow_le_pow_right (by norm_num) (by omega)
  have h3 : 2 ^ (32 - p) * 2 ^ p = 2 ^ 32 := by rw [← pow_add]; congr 1; omega
  rw [BitVec.toNat_shiftLeft, BitVec.toNat_setWidth, Nat.mod_eq_of_lt (lt_of_lt_of_le hv h2), Nat.shiftLeft_eq]
  apply Nat.mod_eq_of_lt
  calc v.toNat * 2 ^ p < 2 ^ (32 - p) * 2 ^ p := by
        apply Nat.mul_lt_mul_of_pos_right
        · omega
        · positivity
    _ = 2 ^ 32 := h3

/-! ### Encoded words -/

/-- The opcode field of an encoded word. -/
theorem opcodeField_encodeFields (it : IType) (op rd a b imm : Int) :
    opcodeField (encodeFields it op rd a b imm) = BitVec.ofInt 7 op := by
  unfold opcodeField
  cases it <;> simp only [encodeFields, BitVec.extractLsb'_or] <;>
    simp [extract_placeField_hit, extract_placeField_miss]

@[simp] theorem itype_recordOf (op : Opcode) (i : Instr) : (recordOf op i).itype = i.mnemonic.itype := by
  cases i <;> rfl

@[simp] theorem opcode_recordOf (op : Opcode) (i : Instr) : (recordOf op i).opcode = op := by
  cases i <;> rfl

end Sys2Proof
end

