-- ==== Sys2Proof/Laws/Memory.lean ====
section
/-! SUPPORT. The laws of memory: read after write, the canonical form and the bounds kept by every operation,
extensionality, and the byte-order round trip. -/

namespace Sys2Proof.Machine

/-! ### Reading -/

@[simp] theorem Memory.read_nil (a : Nat) : Memory.read [] a = unlistedByte := rfl

theorem Memory.read_cons (c : Host.Cell) (m : Memory) (a : Nat) :
    Memory.read (c :: m) a = if c.1 = a then c.2 else Memory.read m a := rfl

/-- An address no entry lists reads as the unlisted byte. -/
theorem Memory.read_of_not_listed (m : Memory) (a : Nat) (h : ∀ c ∈ m, c.1 ≠ a) :
    Memory.read m a = unlistedByte := by
  induction m with
  | nil => rfl
  | cons c m ih =>
    rw [Memory.read_cons, if_neg (h c (by simp))]
    exact ih fun d hd => h d (by simp [hd])

/-- Erasing an address: it reads as unlisted, every other address as before. -/
theorem Memory.read_filter (m : Memory) (a b : Nat) :
    Memory.read (m.filter (fun c => c.1 != a)) b = if b = a then unlistedByte else Memory.read m b := by
  induction m with
  | nil => simp
  | cons c m ih =>
    by_cases hc : c.1 = a
    · rw [List.filter_cons_of_neg (by simp [hc]), ih, Memory.read_cons]
      by_cases hb : b = a
      · simp [hb]
      · rw [if_neg hb, if_neg hb, if_neg (by rw [hc]; exact fun h => hb h.symm)]
    · rw [List.filter_cons_of_pos (by simp [hc]), Memory.read_cons, ih, Memory.read_cons]
      by_cases hb : c.1 = b
      · have : b ≠ a := hb ▸ hc
        simp [hb, this]
      · simp [hb]

/-- Inserting at an address no entry lists. -/
theorem Memory.read_insert (m : Memory) (a b : Nat) (v : Byte) (h : ∀ c ∈ m, c.1 ≠ a) :
    Memory.read (Memory.insert m a v) b = if b = a then v else Memory.read m b := by
  induction m with
  | nil => simp [Memory.insert, Memory.read, eq_comm]
  | cons c m ih =>
    have hm : ∀ d ∈ m, d.1 ≠ a := fun d hd => h d (by simp [hd])
    by_cases hlt : a < c.1
    · rw [Memory.insert, if_pos hlt, Memory.read_cons]
      simp [eq_comm]
    · rw [Memory.insert, if_neg hlt]
      rw [Memory.read_cons, ih hm, Memory.read_cons]
      have hca : c.1 ≠ a := h c (by simp)
      by_cases hb : c.1 = b
      · have : b ≠ a := hb ▸ hca
        simp [hb, this]
      · simp [hb]

/-- READ AFTER WRITE, one byte: the address written reads the value, every other address reads as before
(20_memory.md R72). -/
theorem Memory.read_write (m : Memory) (a b : Nat) (v : Byte) :
    Memory.read (Memory.write m a v) b = if b = a then v else Memory.read m b := by
  unfold Memory.write
  have hne : ∀ c ∈ m.filter (fun c => c.1 != a), c.1 ≠ a := by
    intro c hc
    simpa using (List.mem_filter.mp hc).2
  by_cases hv : v = unlistedByte
  · simp only [hv, if_true]
    exact Memory.read_filter m a b
  · simp only [hv, if_false]
    rw [Memory.read_insert _ _ _ _ hne, Memory.read_filter]
    by_cases hb : b = a <;> simp [hb]

/-- READ AFTER WRITE, a byte string: the byte at offset k reads the k-th byte written, every address outside
reads as before. -/
theorem Memory.read_writeBytes (m : Memory) (a b : Nat) (bs : List Byte) :
    Memory.read (Memory.writeBytes m a bs) b =
      if h : a ≤ b ∧ b < a + bs.length then bs[b - a]'(by omega) else Memory.read m b := by
  induction bs generalizing m a with
  | nil => simp [Memory.writeBytes]
  | cons v bs ih =>
    rw [Memory.writeBytes, ih]
    by_cases h1 : a + 1 ≤ b ∧ b < a + 1 + bs.length
    · have h2 : a ≤ b ∧ b < a + (v :: bs).length := by simp; omega
      rw [dif_pos h1, dif_pos h2]
      obtain ⟨k, rfl⟩ : ∃ k, b = a + 1 + k := ⟨b - (a + 1), by omega⟩
      have e1 : a + 1 + k - (a + 1) = k := by omega
      have e2 : a + 1 + k - a = k + 1 := by omega
      simp [e1, e2]
    · rw [dif_neg h1, Memory.read_write]
      by_cases hb : b = a
      · subst hb
        simp
      · have h2 : ¬ (a ≤ b ∧ b < a + (v :: bs).length) := by simp; omega
        rw [dif_neg h2, if_neg hb]

/-- A write leaves every address outside it as it was. -/
theorem Memory.read_writeBytes_outside (m : Memory) (a b : Nat) (bs : List Byte)
    (h : b < a ∨ a + bs.length ≤ b) : Memory.read (Memory.writeBytes m a bs) b = Memory.read m b := by
  rw [Memory.read_writeBytes, dif_neg (by omega)]

/-- A write's byte at an offset. -/
theorem Memory.read_writeBytes_at (m : Memory) (a k : Nat) (bs : List Byte) (h : k < bs.length) :
    Memory.read (Memory.writeBytes m a bs) (a + k) = bs[k] := by
  rw [Memory.read_writeBytes, dif_pos (by omega)]
  simp

@[simp] theorem Memory.length_readBytes (m : Memory) (a n : Nat) : (Memory.readBytes m a n).length = n := by
  induction n generalizing a with
  | zero => rfl
  | succ n ih => simp [Memory.readBytes, ih]

theorem Memory.getElem_readBytes (m : Memory) (a n k : Nat) (h : k < (Memory.readBytes m a n).length) :
    (Memory.readBytes m a n)[k] = Memory.read m (a + k) := by
  induction n generalizing a k with
  | zero => simp [Memory.readBytes] at h
  | succ n ih =>
    cases k with
    | zero => simp [Memory.readBytes]
    | succ k =>
      simp only [Memory.readBytes, List.getElem_cons_succ]
      rw [ih]
      congr 1; omega

/-- Two memories that read alike over a range give the same bytes. -/
theorem Memory.readBytes_congr (m m' : Memory) (a n : Nat)
    (h : ∀ b, a ≤ b → b < a + n → Memory.read m b = Memory.read m' b) :
    Memory.readBytes m a n = Memory.readBytes m' a n := by
  induction n generalizing a with
  | zero => rfl
  | succ n ih =>
    simp only [Memory.readBytes]
    rw [h a le_rfl (by omega), ih (a + 1) fun b h1 h2 => h b (by omega) (by omega)]

/-- Reading back exactly the range written gives the bytes written. -/
theorem Memory.readBytes_writeBytes (m : Memory) (a : Nat) (bs : List Byte) :
    Memory.readBytes (Memory.writeBytes m a bs) a bs.length = bs := by
  apply List.ext_getElem (by simp)
  intro k h1 h2
  rw [Memory.getElem_readBytes, Memory.read_writeBytes_at _ _ _ _ h2]

/-! ### The canonical form and the bounds -/

theorem Memory.wf_nil : Memory.wf [] := by decide

theorem Memory.mem_insert (m : Memory) (a : Nat) (v : Byte) (c : Host.Cell) :
    c ∈ Memory.insert m a v ↔ c = (a, v) ∨ c ∈ m := by
  induction m with
  | nil => simp [Memory.insert]
  | cons d m ih =>
    by_cases h : a < d.1
    · rw [Memory.insert, if_pos h]; simp
    · rw [Memory.insert, if_neg h]
      simp only [List.mem_cons, ih]
      tauto

/-- Inserting a value that an unlisted address does not read keeps the canonical form. -/
theorem Memory.wf_insert (m : Memory) (a : Nat) (v : Byte) (hm : Memory.wf m) (hv : v ≠ unlistedByte)
    (h : ∀ c ∈ m, c.1 ≠ a) : Memory.wf (Memory.insert m a v) := by
  refine ⟨?_, ?_⟩
  · obtain ⟨hs, -⟩ := hm
    induction m with
    | nil => simp [Memory.insert]
    | cons d m ih =>
      rw [List.pairwise_cons] at hs
      by_cases hlt : a < d.1
      · rw [Memory.insert, if_pos hlt]
        refine List.pairwise_cons.mpr ⟨?_, List.pairwise_cons.mpr hs⟩
        intro c hc
        rcases List.mem_cons.mp hc with rfl | hc
        · exact hlt
        · exact lt_trans hlt (hs.1 c hc)
      · rw [Memory.insert, if_neg hlt]
        have hda : d.1 ≠ a := h d (by simp)
        refine List.pairwise_cons.mpr ⟨?_, ih (fun c hc => h c (by simp [hc])) hs.2⟩
        intro c hc
        rcases (Memory.mem_insert m a v c).mp hc with rfl | hc
        · show d.1 < a; omega
        · exact hs.1 c hc
  · intro c hc
    rcases (Memory.mem_insert m a v c).mp hc with rfl | hc
    · exact hv
    · exact hm.2 c hc

/-- A byte write keeps the canonical form. -/
theorem Memory.wf_write (m : Memory) (a : Nat) (v : Byte) (hm : Memory.wf m) :
    Memory.wf (Memory.write m a v) := by
  have hf : Memory.wf (m.filter (fun c => c.1 != a)) :=
    ⟨hm.1.filter _, fun c hc => hm.2 c (List.mem_filter.mp hc).1⟩
  unfold Memory.write
  by_cases hv : v = unlistedByte
  · simpa [hv] using hf
  · simp only [hv, if_false]
    exact Memory.wf_insert _ _ _ hf hv fun c hc => by simpa using (List.mem_filter.mp hc).2

/-- A write of a byte string keeps the canonical form. -/
theorem Memory.wf_writeBytes (m : Memory) (a : Nat) (bs : List Byte) (hm : Memory.wf m) :
    Memory.wf (Memory.writeBytes m a bs) := by
  induction bs generalizing m a with
  | nil => exact hm
  | cons b bs ih => exact ih _ _ (Memory.wf_write m a b hm)

/-- A byte write inside the array lists no address outside it. -/
theorem Memory.within_write (size : Nat) (m : Memory) (a : Nat) (v : Byte) (hm : Memory.within size m)
    (ha : a < size) : Memory.within size (Memory.write m a v) := by
  intro c hc
  unfold Memory.write at hc
  by_cases hv : v = unlistedByte
  · simp only [hv, if_true] at hc
    exact hm c (List.mem_filter.mp hc).1
  · simp only [hv, if_false] at hc
    rcases (Memory.mem_insert _ a v c).mp hc with rfl | hc
    · exact ha
    · exact hm c (List.mem_filter.mp hc).1

/-- A write of a byte string inside the array lists no address outside it. -/
theorem Memory.within_writeBytes (size : Nat) (m : Memory) (a : Nat) (bs : List Byte)
    (hm : Memory.within size m) (ha : a + bs.length ≤ size) :
    Memory.within size (Memory.writeBytes m a bs) := by
  induction bs generalizing m a with
  | nil => exact hm
  | cons b bs ih =>
    simp only [List.length_cons] at ha
    exact ih _ _ (Memory.within_write size m a b hm (by omega)) (by omega)

/-- A listed address of a canonical memory reads its own entry. -/
theorem Memory.read_of_mem (m : Memory) (hm : Memory.wf m) (c : Host.Cell) (hc : c ∈ m) :
    Memory.read m c.1 = c.2 := by
  induction m with
  | nil => simp at hc
  | cons d m ih =>
    have hp := List.pairwise_cons.mp hm.1
    rw [Memory.read_cons]
    rcases List.mem_cons.mp hc with rfl | hc
    · simp
    · have hlt := hp.1 c hc
      rw [if_neg (by omega)]
      exact ih ⟨hp.2, fun e he => hm.2 e (by simp [he])⟩ hc

/-! ### Byte order -/

@[simp] theorem length_bytesOfNatLE (n v : Nat) : (bytesOfNatLE n v).length = n := by
  induction n generalizing v with
  | zero => rfl
  | succ n ih => simp [bytesOfNatLE, ih]

@[simp] theorem length_bytesOfNat (o : ByteOrder) (n v : Nat) : (bytesOfNat o n v).length = n := by
  cases o <;> simp [bytesOfNat]

/-- Byte k of a value in little-endian order (20_memory.md R63). -/
theorem getElem_bytesOfNatLE (n v k : Nat) (h : k < (bytesOfNatLE n v).length) :
    (bytesOfNatLE n v)[k] = BitVec.ofNat 8 (v / 256 ^ k) := by
  induction n generalizing v k with
  | zero => simp [bytesOfNatLE] at h
  | succ n ih =>
    cases k with
    | zero => simp [bytesOfNatLE]
    | succ k =>
      simp only [bytesOfNatLE, List.getElem_cons_succ]
      rw [ih, Nat.div_div_eq_div_mul, pow_succ, Nat.mul_comm]

/-- Reading back the low `n` bytes of a value gives the value mod `2^(8n)`, little-endian. -/
theorem natOfBytesLE_bytesOfNatLE (n v : Nat) : natOfBytesLE (bytesOfNatLE n v) = v % 256 ^ n := by
  induction n generalizing v with
  | zero => simp [bytesOfNatLE, natOfBytesLE, Nat.mod_one]
  | succ n ih =>
    simp only [bytesOfNatLE, natOfBytesLE, BitVec.toNat_ofNat, ih]
    rw [pow_succ' 256 n, Nat.mod_mul]

/-- The same under either byte order (20_memory.md R64). -/
theorem natOfBytes_bytesOfNat (o : ByteOrder) (n v : Nat) :
    natOfBytes o (bytesOfNat o n v) = v % 256 ^ n := by
  cases o <;> simp [natOfBytes, bytesOfNat, natOfBytesLE_bytesOfNatLE]

end Sys2Proof.Machine
end

