-- ==== Sys2Proof/Laws/State.lean ====
section
/-! SUPPORT. What each update of the state does to each field. -/

namespace Sys2Proof.Machine

@[simp] theorem State.setRegs_cfg (s : State) (x : Vector Word 31) : (s.setRegs x).cfg = s.cfg := rfl
@[simp] theorem State.setRegs_regs (s : State) (x : Vector Word 31) : (s.setRegs x).regs = x := rfl
@[simp] theorem State.setRegs_pc (s : State) (x : Vector Word 31) : (s.setRegs x).pc = s.pc := rfl
@[simp] theorem State.setRegs_mem (s : State) (x : Vector Word 31) : (s.setRegs x).mem = s.mem := rfl
@[simp] theorem State.setRegs_run (s : State) (x : Vector Word 31) : (s.setRegs x).run = s.run := rfl
@[simp] theorem State.setRegs_output (s : State) (x : Vector Word 31) : (s.setRegs x).output = s.output := rfl
@[simp] theorem State.setRegs_outcome (s : State) (x : Vector Word 31) : (s.setRegs x).outcome = s.outcome := rfl

@[simp] theorem State.setPc_cfg (s : State) (x : Word) : (s.setPc x).cfg = s.cfg := rfl
@[simp] theorem State.setPc_regs (s : State) (x : Word) : (s.setPc x).regs = s.regs := rfl
@[simp] theorem State.setPc_pc (s : State) (x : Word) : (s.setPc x).pc = x := rfl
@[simp] theorem State.setPc_mem (s : State) (x : Word) : (s.setPc x).mem = s.mem := rfl
@[simp] theorem State.setPc_run (s : State) (x : Word) : (s.setPc x).run = s.run := rfl
@[simp] theorem State.setPc_output (s : State) (x : Word) : (s.setPc x).output = s.output := rfl
@[simp] theorem State.setPc_outcome (s : State) (x : Word) : (s.setPc x).outcome = s.outcome := rfl

@[simp] theorem State.setMem_cfg (s : State) (x : Memory) : (s.setMem x).cfg = s.cfg := rfl
@[simp] theorem State.setMem_regs (s : State) (x : Memory) : (s.setMem x).regs = s.regs := rfl
@[simp] theorem State.setMem_pc (s : State) (x : Memory) : (s.setMem x).pc = s.pc := rfl
@[simp] theorem State.setMem_mem (s : State) (x : Memory) : (s.setMem x).mem = x := rfl
@[simp] theorem State.setMem_run (s : State) (x : Memory) : (s.setMem x).run = s.run := rfl
@[simp] theorem State.setMem_output (s : State) (x : Memory) : (s.setMem x).output = s.output := rfl
@[simp] theorem State.setMem_outcome (s : State) (x : Memory) : (s.setMem x).outcome = s.outcome := rfl

@[simp] theorem State.setRun_cfg (s : State) (x : RunState) : (s.setRun x).cfg = s.cfg := rfl
@[simp] theorem State.setRun_regs (s : State) (x : RunState) : (s.setRun x).regs = s.regs := rfl
@[simp] theorem State.setRun_pc (s : State) (x : RunState) : (s.setRun x).pc = s.pc := rfl
@[simp] theorem State.setRun_mem (s : State) (x : RunState) : (s.setRun x).mem = s.mem := rfl
@[simp] theorem State.setRun_run (s : State) (x : RunState) : (s.setRun x).run = x := rfl
@[simp] theorem State.setRun_output (s : State) (x : RunState) : (s.setRun x).output = s.output := rfl
@[simp] theorem State.setRun_outcome (s : State) (x : RunState) : (s.setRun x).outcome = s.outcome := rfl

@[simp] theorem State.setOutput_cfg (s : State) (x : List OutputEvent) : (s.setOutput x).cfg = s.cfg := rfl
@[simp] theorem State.setOutput_regs (s : State) (x : List OutputEvent) : (s.setOutput x).regs = s.regs := rfl
@[simp] theorem State.setOutput_pc (s : State) (x : List OutputEvent) : (s.setOutput x).pc = s.pc := rfl
@[simp] theorem State.setOutput_mem (s : State) (x : List OutputEvent) : (s.setOutput x).mem = s.mem := rfl
@[simp] theorem State.setOutput_run (s : State) (x : List OutputEvent) : (s.setOutput x).run = s.run := rfl
@[simp] theorem State.setOutput_output (s : State) (x : List OutputEvent) : (s.setOutput x).output = x := rfl
@[simp] theorem State.setOutput_outcome (s : State) (x : List OutputEvent) : (s.setOutput x).outcome = s.outcome := rfl

@[simp] theorem State.setOutcome_cfg (s : State) (x : Option StepOutcome) : (s.setOutcome x).cfg = s.cfg := rfl
@[simp] theorem State.setOutcome_regs (s : State) (x : Option StepOutcome) : (s.setOutcome x).regs = s.regs := rfl
@[simp] theorem State.setOutcome_pc (s : State) (x : Option StepOutcome) : (s.setOutcome x).pc = s.pc := rfl
@[simp] theorem State.setOutcome_mem (s : State) (x : Option StepOutcome) : (s.setOutcome x).mem = s.mem := rfl
@[simp] theorem State.setOutcome_run (s : State) (x : Option StepOutcome) : (s.setOutcome x).run = s.run := rfl
@[simp] theorem State.setOutcome_output (s : State) (x : Option StepOutcome) : (s.setOutcome x).output = s.output := rfl
@[simp] theorem State.setOutcome_outcome (s : State) (x : Option StepOutcome) : (s.setOutcome x).outcome = x := rfl

/-- Two states with equal fields are equal. -/
theorem State.ext_fields (s t : State) (h1 : s.cfg = t.cfg) (h2 : s.regs = t.regs) (h3 : s.pc = t.pc)
    (h4 : s.mem = t.mem) (h5 : s.run = t.run) (h6 : s.output = t.output) (h7 : s.outcome = t.outcome) :
    s = t := by
  cases s; cases t; simp_all

end Sys2Proof.Machine
end

