-- ==== Sys2Proof/Laws/Ops.lean ====
section
/-! SUPPORT. One lemma per shared operation that says all it can do; proofs cite these and do not unfold. -/

namespace Sys2Proof.Machine

/-! ### Registers -/

/-- Register 0 reads 0 (10_state.md R31). -/
@[simp] theorem readReg_zero (s : State) : readReg s 0#5 = 0#32 := by simp [readReg]

/-- Two states with the same registers read alike. -/
theorem readReg_congr {s t : State} (h : t.regs = s.regs) (r : RegIdx) : readReg t r = readReg s r := by
  unfold readReg; simp only [h]

@[simp] theorem readReg_setPc (s : State) (x : Word) (r : RegIdx) : readReg (s.setPc x) r = readReg s r := rfl
@[simp] theorem readReg_setMem (s : State) (x : Memory) (r : RegIdx) : readReg (s.setMem x) r = readReg s r := rfl
@[simp] theorem readReg_setRun (s : State) (x : RunState) (r : RegIdx) : readReg (s.setRun x) r = readReg s r := rfl
@[simp] theorem readReg_setOutput (s : State) (x : List OutputEvent) (r : RegIdx) :
    readReg (s.setOutput x) r = readReg s r := rfl
@[simp] theorem readReg_setOutcome (s : State) (x : Option StepOutcome) (r : RegIdx) :
    readReg (s.setOutcome x) r = readReg s r := rfl
@[simp] theorem readReg_emit (s : State) (fd : Fd) (bs : List Byte) (r : RegIdx) :
    readReg (emit fd bs s) r = readReg s r := rfl

@[simp] theorem writeReg_cfg (r : RegIdx) (v : Word) (s : State) : (writeReg r v s).cfg = s.cfg := by
  unfold writeReg; split <;> rfl
@[simp] theorem writeReg_pc (r : RegIdx) (v : Word) (s : State) : (writeReg r v s).pc = s.pc := by
  unfold writeReg; split <;> rfl
@[simp] theorem writeReg_mem (r : RegIdx) (v : Word) (s : State) : (writeReg r v s).mem = s.mem := by
  unfold writeReg; split <;> rfl
@[simp] theorem writeReg_run (r : RegIdx) (v : Word) (s : State) : (writeReg r v s).run = s.run := by
  unfold writeReg; split <;> rfl
@[simp] theorem writeReg_output (r : RegIdx) (v : Word) (s : State) : (writeReg r v s).output = s.output := by
  unfold writeReg; split <;> rfl
@[simp] theorem writeReg_outcome (r : RegIdx) (v : Word) (s : State) : (writeReg r v s).outcome = s.outcome := by
  unfold writeReg; split <;> rfl

/-- A write to register 0 changes nothing (10_state.md R32). -/
@[simp] theorem writeReg_zero (v : Word) (s : State) : writeReg 0#5 v s = s := by simp [writeReg]

/-- Reading a register after writing one (10_state.md R31, R32). -/
theorem readReg_writeReg (r : RegIdx) (v : Word) (s : State) : RegWritten r v s (writeReg r v s) := by
  intro q
  by_cases hr : r = 0
  · subst hr; simp
  · by_cases hq : q = 0
    · have hqr : q ≠ r := fun h => hr (h ▸ hq)
      rw [if_neg fun h => hqr h.1]
      simp [readReg, hq]
    · have hr' : r.toNat ≠ 0 := fun h => hr (BitVec.eq_of_toNat_eq (by simpa using h))
      have hq' : q.toNat ≠ 0 := fun h => hq (BitVec.eq_of_toNat_eq (by simpa using h))
      simp only [readReg, writeReg, hr, hq, if_false, State.setRegs_regs, Vector.getElem_set, ne_eq,
        not_false_eq_true, and_true]
      by_cases hqr : q = r
      · subst hqr; simp
      · have : r.toNat - 1 ≠ q.toNat - 1 := fun h => hqr (BitVec.eq_of_toNat_eq (by omega))
        simp [hqr, this]

/-! ### Bounds-checked access -/

/-- `MemReadBytes`: in bounds the bytes in address order, out of bounds the fault (20_memory.md R62, R70). -/
theorem memReadBytes_spec (s : State) (a : Word) (n : Nat) (kind : AccessKind) (p : Word) :
    memReadBytes s a n kind p =
      if a.toNat + n ≤ s.cfg.memSize then .ok (s.mem.readBytes a.toNat n)
      else .error (.outOfBounds a n kind p) := rfl

/-- `MemRead`: in bounds the value of the bytes, out of bounds the fault (20_memory.md R62, R63). -/
theorem memRead_spec (s : State) (a : Word) (n : Nat) (kind : AccessKind) (p : Word) :
    memRead s a n kind p =
      if a.toNat + n ≤ s.cfg.memSize then .ok (natOfBytes s.cfg.byteOrder (s.mem.readBytes a.toNat n))
      else .error (.outOfBounds a n kind p) := by
  unfold memRead
  rw [memReadBytes_spec]
  split <;> rename_i h <;> split at h <;> simp_all

/-- `MemWrite`: in bounds the bytes stand in memory, out of bounds the fault (20_memory.md R62, R63). -/
theorem memWrite_spec (s : State) (a : Word) (n v : Nat) (p : Word) :
    memWrite s a n v p =
      if a.toNat + n ≤ s.cfg.memSize then
        .ok (s.setMem (s.mem.writeBytes a.toNat (bytesOfNat s.cfg.byteOrder n v)))
      else .error (.outOfBounds a n .store p) := rfl

/-- A fetch: in bounds the word at pc and pc advanced, out of bounds the fault (40_cycle.md R161). -/
theorem fetch_spec (s : State) :
    fetch s = if s.pc.toNat + 4 ≤ s.cfg.memSize then .ok (wordAtPc s, advanced s)
      else .error (.outOfBounds s.pc 4 .fetch s.pc) := by
  unfold fetch
  rw [memRead_spec]
  split <;> rename_i h <;> split at h <;> simp_all [wordAtPc, advanced]

/-- `fetch_pc` of the state an instruction sees is the pc it was fetched at (10_state.md R37). -/
@[simp] theorem fetchPcOf_advanced (s : State) : fetchPcOf (advanced s) = s.pc := by
  simp [fetchPcOf, advanced]

/-! ### How a step ends -/

/-- `finish` changes nothing but the outcome, to Continued. -/
theorem finish_spec (s : State) : finish s = .next (s.setOutcome (some .continued)) := rfl

/-- `raise` takes the fault and changes nothing else (40_cycle.md R166). -/
theorem raise_spec (f : Fault) (s : State) : ∃ t, raise f s = .next t ∧ FaultTaken f s t :=
  ⟨_, rfl, rfl, rfl, fun _ => rfl, fun _ => rfl, rfl, rfl, rfl⟩

/-- `raise` as an equation. -/
theorem raise_eq (f : Fault) (s : State) :
    raise f s = .next ((s.setRun (.halted (.faulted f))).setOutcome (some (.faulted f))) := rfl

/-- `exitWith` halts with the code and changes nothing else (44_system.md R283). -/
theorem exitWith_eq (c : Word) (s : State) :
    exitWith c s = .next ((s.setRun (.halted (.exited c))).setOutcome (some (.exited c))) := rfl

/-- `breakpoint` changes nothing but the outcome (44_system.md R285). -/
theorem breakpoint_eq (s : State) : breakpoint s = .next (s.setOutcome (some .breakpoint)) := rfl

/-! ### Runs -/

@[simp] theorem run_zero (s : State) : Host.Core.run Sys2Proof.core 0 s = .next s := rfl

/-- A run of one step more: the first step, then the rest from the state it answers. -/
theorem run_succ (k : Nat) (s t : State) (h : step s = .next t) :
    Host.Core.run Sys2Proof.core (k + 1) s = Host.Core.run Sys2Proof.core k t := by
  have e : Sys2Proof.core.step s = .next t := h
  simp only [Host.Core.run, e]

/-- A step of a halted core (40_cycle.md R167). -/
theorem step_halted (s : State) (o : HaltOutcome) (h : s.run = .halted o) :
    step s = .next (s.setOutcome (some o.toStep)) := by
  unfold step; rw [h]; rfl

/-- A step of a running core: fetch bounds, decode, dispatch, in this order (40_cycle.md R160). -/
theorem step_running (s : State) (h : s.run = .running) :
    step s = if s.pc.toNat + 4 ≤ s.cfg.memSize then
        match decode s.cfg.opcodes (wordAtPc s) with
        | .error e => raise (faultOfDecode e (advanced s)) (advanced s)
        | .ok i => exec i (advanced s)
      else raise (.outOfBounds s.pc 4 .fetch s.pc) s := by
  unfold step
  rw [h, fetch_spec]
  by_cases hb : s.pc.toNat + 4 ≤ s.cfg.memSize
  · simp only [hb, if_true]; rfl
  · simp only [hb, if_false]

/-! ### The shapes of the instructions -/

/-- A register written and the step continued. -/
theorem finish_writeReg_spec (rd : RegIdx) (v : Word) (s : State) :
    ∃ t, finish (writeReg rd v s) = .next t ∧ OnlyWrites rd v s t := by
  refine ⟨_, finish_spec _, ?_, ?_, ?_, ?_, ?_, ?_, ?_⟩
  · intro r; simpa using readReg_writeReg rd v s r
  · intro a; simp
  · simp
  · simp
  · simp
  · simp
  · simp

/-- What a register-register operation does (41_alu.md R200). -/
theorem aluReg_spec (f : Word → Word → Word) (rd rs1 rs2 : RegIdx) (s : State) :
    ∃ t, aluReg f rd rs1 rs2 s = .next t ∧ OnlyWrites rd (f (readReg s rs1) (readReg s rs2)) s t :=
  finish_writeReg_spec _ _ _

/-- What a register-immediate operation does (41_alu.md R200). -/
theorem aluImm_spec (f : Word → Word → Word) (rd rs1 : RegIdx) (imm : BitVec 15) (s : State) :
    ∃ t, aluImm f rd rs1 imm s = .next t ∧ OnlyWrites rd (f (readReg s rs1) (immI imm)) s t :=
  finish_writeReg_spec _ _ _

/-- What a division does: the value it has, or DivideByZero where it has none (41_alu.md R204, R205). -/
theorem aluDivision_spec (f : DivZero → Word → Word → Option Word) (rd rs1 rs2 : RegIdx) (s : State) :
    ∃ t, aluDivision f rd rs1 rs2 s = .next t ∧
      match f s.cfg.divZero (readReg s rs1) (readReg s rs2) with
      | some v => OnlyWrites rd v s t
      | none => FaultTaken (.divideByZero (fetchPcOf s)) s t := by
  unfold aluDivision
  cases f s.cfg.divZero (readReg s rs1) (readReg s rs2) with
  | some v => exact finish_writeReg_spec _ _ _
  | none => exact raise_spec _ _

/-- What a load does (42_load_store.md R240). -/
theorem loadAt_spec (n : Nat) (ext : Nat → Word) (rd rs1 : RegIdx) (imm : BitVec 15) (s : State) :
    ∃ t, loadAt n ext rd rs1 imm s = .next t ∧
      if (effAddr s rs1 imm).toNat + n ≤ s.cfg.memSize then
        OnlyWrites rd (ext (natOfBytes s.cfg.byteOrder (s.mem.readBytes (effAddr s rs1 imm).toNat n))) s t
      else FaultTaken (.outOfBounds (effAddr s rs1 imm) n .load (fetchPcOf s)) s t := by
  unfold loadAt
  rw [memRead_spec]
  by_cases h : (effAddr s rs1 imm).toNat + n ≤ s.cfg.memSize
  · simp only [h, if_true]
    exact finish_writeReg_spec _ _ _
  · simp only [h, if_false]
    exact raise_spec _ _

/-- What a store does (42_load_store.md R240). -/
theorem storeAt_spec (n : Nat) (rs1 rs2 : RegIdx) (imm : BitVec 15) (s : State) :
    ∃ t, storeAt n rs1 rs2 imm s = .next t ∧
      if (effAddr s rs2 imm).toNat + n ≤ s.cfg.memSize then
        t = (s.setMem (s.mem.writeBytes (effAddr s rs2 imm).toNat
          (bytesOfNat s.cfg.byteOrder n (readReg s rs1).toNat))).setOutcome (some .continued)
      else FaultTaken (.outOfBounds (effAddr s rs2 imm) n .store (fetchPcOf s)) s t := by
  unfold storeAt
  rw [memWrite_spec]
  by_cases h : (effAddr s rs2 imm).toNat + n ≤ s.cfg.memSize
  · simp only [h, if_true]
    exact ⟨_, rfl, rfl⟩
  · simp only [h, if_false]
    exact raise_spec _ _

/-- What a branch does (43_control.md R260). -/
theorem branchIf_spec (c : Word → Word → Bool) (rs1 rs2 : RegIdx) (imm : BitVec 15) (s : State) :
    branchIf c rs1 rs2 imm s =
      .next ((s.setPc (if c (readReg s rs1) (readReg s rs2) then immI imm else s.pc)).setOutcome
        (some .continued)) := by
  unfold branchIf finish
  cases c (readReg s rs1) (readReg s rs2) <;> rfl

/-- What a jump does (43_control.md R265, R266). -/
theorem jumpLink_spec (rd : RegIdx) (target : Word) (s : State) :
    ∃ t, jumpLink rd target s = .next t ∧ RegWritten rd s.pc s t ∧ t.pc = target ∧ t.mem = s.mem ∧
      Continued s t := by
  refine ⟨_, finish_spec _, ?_, ?_, ?_, ?_, ?_, ?_, ?_⟩
  · intro r; simpa using readReg_writeReg rd s.pc (s.setPc target) r
  · simp
  · simp
  · simp
  · simp
  · simp
  · simp

/-- What the write system call does (44_system.md R282). -/
theorem syscallWrite_spec (s : State) :
    ∃ t, syscallWrite s = .next t ∧
      match fdOfWord (readReg s regA0) with
      | none => FaultTaken (.invalidSyscallArgument (readReg s regA0) (fetchPcOf s)) s t
      | some fd =>
        if (readReg s regA1).toNat + (readReg s regA2).toNat ≤ s.cfg.memSize then
          t = (emit fd (s.mem.readBytes (readReg s regA1).toNat (readReg s regA2).toNat) s).setOutcome
            (some .continued)
        else FaultTaken (.outOfBounds (readReg s regA1) (readReg s regA2).toNat .syscall (fetchPcOf s)) s t := by
  unfold syscallWrite
  cases hfd : fdOfWord (readReg s regA0) with
  | none => exact raise_spec _ _
  | some fd =>
    simp only [memReadBytes_spec]
    by_cases h : (readReg s regA1).toNat + (readReg s regA2).toNat ≤ s.cfg.memSize
    · simp only [h, if_true]
      exact ⟨_, rfl, rfl⟩
    · simp only [h, if_false]
      exact raise_spec _ _

end Sys2Proof.Machine
end

