-- ==== Sys2Proof/Laws/PerInstr.lean ====
section
/-! SUPPORT. Facts stated instruction by instruction. FieldsRoundTrip: an instruction is the one its mnemonic makes
of its own fields (spec 30_encoding.md R108). -/

namespace Sys2Proof.Laws.FieldsRoundTrip

/-- Packing an instruction's fields in a record and reading them back gives the instruction. -/
def Statement (i : Instr) : Prop := ∀ op : Opcode, instrOf i.mnemonic (recordOf op i) = i

/-- A 15-bit immediate survives its place in the record. -/
theorem imm15_kept (imm : BitVec 15) : (imm.setWidth 20).setWidth 15 = imm := by
  apply BitVec.eq_of_toNat_eq
  have := imm.isLt
  simp only [BitVec.toNat_setWidth]
  omega

theorem add (rd rs1 rs2 : RegIdx) : Statement (Instr.add rd rs1 rs2) := fun _ => rfl
theorem sub (rd rs1 rs2 : RegIdx) : Statement (Instr.sub rd rs1 rs2) := fun _ => rfl
theorem mul (rd rs1 rs2 : RegIdx) : Statement (Instr.mul rd rs1 rs2) := fun _ => rfl
theorem div (rd rs1 rs2 : RegIdx) : Statement (Instr.div rd rs1 rs2) := fun _ => rfl
theorem rem (rd rs1 rs2 : RegIdx) : Statement (Instr.rem rd rs1 rs2) := fun _ => rfl
theorem and (rd rs1 rs2 : RegIdx) : Statement (Instr.and rd rs1 rs2) := fun _ => rfl
theorem or (rd rs1 rs2 : RegIdx) : Statement (Instr.or rd rs1 rs2) := fun _ => rfl
theorem xor (rd rs1 rs2 : RegIdx) : Statement (Instr.xor rd rs1 rs2) := fun _ => rfl
theorem sll (rd rs1 rs2 : RegIdx) : Statement (Instr.sll rd rs1 rs2) := fun _ => rfl
theorem srl (rd rs1 rs2 : RegIdx) : Statement (Instr.srl rd rs1 rs2) := fun _ => rfl
theorem sra (rd rs1 rs2 : RegIdx) : Statement (Instr.sra rd rs1 rs2) := fun _ => rfl
theorem slt (rd rs1 rs2 : RegIdx) : Statement (Instr.slt rd rs1 rs2) := fun _ => rfl
theorem addi (rd rs1 : RegIdx) (imm : BitVec 15) : Statement (Instr.addi rd rs1 imm) := fun _ => congrArg (Instr.addi rd rs1) (imm15_kept imm)
theorem subi (rd rs1 : RegIdx) (imm : BitVec 15) : Statement (Instr.subi rd rs1 imm) := fun _ => congrArg (Instr.subi rd rs1) (imm15_kept imm)
theorem andi (rd rs1 : RegIdx) (imm : BitVec 15) : Statement (Instr.andi rd rs1 imm) := fun _ => congrArg (Instr.andi rd rs1) (imm15_kept imm)
theorem ori (rd rs1 : RegIdx) (imm : BitVec 15) : Statement (Instr.ori rd rs1 imm) := fun _ => congrArg (Instr.ori rd rs1) (imm15_kept imm)
theorem xori (rd rs1 : RegIdx) (imm : BitVec 15) : Statement (Instr.xori rd rs1 imm) := fun _ => congrArg (Instr.xori rd rs1) (imm15_kept imm)
theorem slli (rd rs1 : RegIdx) (imm : BitVec 15) : Statement (Instr.slli rd rs1 imm) := fun _ => congrArg (Instr.slli rd rs1) (imm15_kept imm)
theorem srli (rd rs1 : RegIdx) (imm : BitVec 15) : Statement (Instr.srli rd rs1 imm) := fun _ => congrArg (Instr.srli rd rs1) (imm15_kept imm)
theorem srai (rd rs1 : RegIdx) (imm : BitVec 15) : Statement (Instr.srai rd rs1 imm) := fun _ => congrArg (Instr.srai rd rs1) (imm15_kept imm)
theorem slti (rd rs1 : RegIdx) (imm : BitVec 15) : Statement (Instr.slti rd rs1 imm) := fun _ => congrArg (Instr.slti rd rs1) (imm15_kept imm)
theorem lb (rd rs1 : RegIdx) (imm : BitVec 15) : Statement (Instr.lb rd rs1 imm) := fun _ => congrArg (Instr.lb rd rs1) (imm15_kept imm)
theorem lh (rd rs1 : RegIdx) (imm : BitVec 15) : Statement (Instr.lh rd rs1 imm) := fun _ => congrArg (Instr.lh rd rs1) (imm15_kept imm)
theorem lw (rd rs1 : RegIdx) (imm : BitVec 15) : Statement (Instr.lw rd rs1 imm) := fun _ => congrArg (Instr.lw rd rs1) (imm15_kept imm)
theorem sb (rs1 rs2 : RegIdx) (imm : BitVec 15) : Statement (Instr.sb rs1 rs2 imm) := fun _ => congrArg (Instr.sb rs1 rs2) (imm15_kept imm)
theorem sh (rs1 rs2 : RegIdx) (imm : BitVec 15) : Statement (Instr.sh rs1 rs2 imm) := fun _ => congrArg (Instr.sh rs1 rs2) (imm15_kept imm)
theorem sw (rs1 rs2 : RegIdx) (imm : BitVec 15) : Statement (Instr.sw rs1 rs2 imm) := fun _ => congrArg (Instr.sw rs1 rs2) (imm15_kept imm)
theorem beq (rs1 rs2 : RegIdx) (imm : BitVec 15) : Statement (Instr.beq rs1 rs2 imm) := fun _ => congrArg (Instr.beq rs1 rs2) (imm15_kept imm)
theorem bne (rs1 rs2 : RegIdx) (imm : BitVec 15) : Statement (Instr.bne rs1 rs2 imm) := fun _ => congrArg (Instr.bne rs1 rs2) (imm15_kept imm)
theorem blt (rs1 rs2 : RegIdx) (imm : BitVec 15) : Statement (Instr.blt rs1 rs2 imm) := fun _ => congrArg (Instr.blt rs1 rs2) (imm15_kept imm)
theorem bge (rs1 rs2 : RegIdx) (imm : BitVec 15) : Statement (Instr.bge rs1 rs2 imm) := fun _ => congrArg (Instr.bge rs1 rs2) (imm15_kept imm)
theorem jalr (rd rs1 : RegIdx) (imm : BitVec 15) : Statement (Instr.jalr rd rs1 imm) := fun _ => congrArg (Instr.jalr rd rs1) (imm15_kept imm)
theorem jal (rd : RegIdx) (imm : BitVec 20) : Statement (Instr.jal rd imm) := fun _ => rfl
theorem ecall : Statement (Instr.ecall) := fun _ => rfl
theorem ebreak : Statement (Instr.ebreak) := fun _ => rfl

end Sys2Proof.Laws.FieldsRoundTrip
end

