-- ==== Sys2Proof/Tests/Slice0.lean ====
section
/-! SUPPORT. Tests. The expected values are the spec's: the vectors V, E, A, M, B, S, C and the programs of
95_test_vectors.md (named in each docstring), or worked out by hand from the rule named. After them stands a
witness for the hypotheses of every statement that has some. -/

namespace Sys2Proof.Tests

open Sys2Proof Sys2Proof.Machine

/-! ### Well-formedness: each check refuses an ill-formed term -/

/-- 00_scope.md R7: MEM_SIZE is at least 4 and at most 2^31. -/
theorem test_wf_refuses_memory_size :
    ¬ Config.wf { defaultConfig with memSize := 3 } ∧ ¬ Config.wf { defaultConfig with memSize := 2 ^ 31 + 1 } ∧
      Config.wf { defaultConfig with memSize := 4 } := by decide

/-- A table with two slots for one opcode is no table. -/
theorem test_wf_refuses_two_slots_for_an_opcode :
    ¬ OpcodeTable.wf [(1, .instr .add), (1, .noItype)] ∧ OpcodeTable.wf defaultOpcodes := by decide

/-- An instruction no opcode of the table names is ill formed, and has no word. -/
theorem test_wf_refuses_an_instruction_outside_the_table :
    ¬ Instr.wf [(1, .instr .add)] (.mul 3 1 2) ∧ Instr.wf [(1, .instr .add)] (.add 3 1 2) ∧
      encode [(1, .instr .add)] (.mul 3 1 2) = none := by decide

/-! ### Decoding and encoding -/

/-- The words of one row each, and back: decoder, encoder and the host's reading of a table row. -/
def roundTrips (rows : List (Nat × Instr)) : Bool :=
  rows.all fun p => decodeTableWord 32 p.1 == some p.2 && encode defaultOpcodes p.2 == some (BitVec.ofNat 32 p.1)

/-- R format, words of A1 to A21 (AND, OR, XOR by 30_encoding.md R103). -/
theorem test_decode_register_alu : roundTrips
    [ (0x00041181, .add 3 1 2), (0x00041182, .sub 3 1 2), (0x00041183, .mul 3 1 2), (0x00041184, .div 3 1 2),
      (0x00041185, .rem 3 1 2), (0x00041186, .and 3 1 2), (0x00041187, .or 3 1 2), (0x00041188, .xor 3 1 2),
      (0x00041189, .sll 3 1 2), (0x0004118A, .srl 3 1 2), (0x0004118B, .sra 3 1 2), (0x0004118C, .slt 3 1 2) ] := by
  decide

/-- I format, words of A22 to A35 and E9. -/
theorem test_decode_immediate_alu : roundTrips
    [ (0x7FFE118D, .addi 3 1 16383), (0x8000118E, .subi 3 1 0x4000), (0x7FFE118F, .andi 3 1 16383),
      (0xFFFE1190, .ori 3 1 0x7FFF), (0x00001191, .xori 3 1 0), (0x00401192, .slli 3 1 32),
      (0x00421193, .srli 3 1 0x21), (0x003E1194, .srai 3 1 31), (0x000A1195, .slti 3 1 5) ] := by decide

/-- Loads (I) and stores (S), words of M4 to M13 (the data register stands in w[11:7]). -/
theorem test_decode_load_store : roundTrips
    [ (0x00001196, .lb 3 1 0), (0x00001197, .lh 3 1 0), (0x02021198, .lw 3 1 0x101), (0x00001119, .sb 2 1 0),
      (0x0000111A, .sh 2 1 0), (0xFFF0111B, .sw 2 1 0x7FF8) ] := by decide

/-- Branches (S), JALR (I), JAL (U), ECALL and EBREAK (E): words of B1 to B13, S1, S13 (BEQ x1, x2 by R105). -/
theorem test_decode_control_system : roundTrips
    [ (0x0400209C, .beq 1 2 0x200), (0x0400109D, .bne 1 1 0x200), (0x0400209E, .blt 1 2 0x200),
      (0x0400209F, .bge 1 2 0x200), (0xFFF850A0, .jalr 1 5 0x7FFC), (0xFFFFF021, .jal 0 0xFFFFF),
      (0x00000022, .ecall), (0x00000023, .ebreak) ] := by decide

/-- E1, E2, E3: reserved opcodes; E4, E5, E6: unused bits are ignored. -/
theorem test_decode_reserved_and_unused :
    decode defaultOpcodes 0 = .error (.invalidOpcode 0 0) ∧
    decode defaultOpcodes 0x24 = .error (.invalidOpcode 0x24 0x24) ∧
    decode defaultOpcodes 0xFFFFFFFF = .error (.invalidOpcode 0x7F 0xFFFFFFFF) ∧
    decode defaultOpcodes 0xFFC41181 = .ok (.add 3 1 2) ∧
    decode defaultOpcodes 0xFFFFFFA2 = .ok .ecall ∧ decode defaultOpcodes 0xABCDEFA3 = .ok .ebreak :=
  ⟨rfl, rfl, rfl, rfl, rfl, rfl⟩

/-- V1: the truncation law's rows. -/
theorem test_encode_truncates :
    encodeFields .I 0x0D 3 1 0 (-1) = 0xFFFE118D ∧ encodeFields .I 0x0D 3 1 0 32768 = 0x0000118D ∧
    encodeFields .I 0x0D 3 1 0 20000 = 0x9C40118D ∧ encodeFields .I 0x0D 35 1 0 0 = 0x0000118D ∧
    encodeFields .S 0x1B 0 2 1 0 = 0x0000111B ∧ encodeFields .U 0x21 1 0 0 0x100000 = 0x000000A1 := by decide

/-- The record of R108 keeps the raw immediate (V1, 20000 = 0x4E20). -/
theorem test_decode_record :
    decodeRecord defaultOpcodes 0x9C40118D = .ok ⟨.I, 0x0D, 3, 1, 0, 0x4E20⟩ ∧
    decodeRecord [(5, .noRule .U)] 0xFFFFF005 = .ok ⟨.U, 5, 0, 0, 0, 0xFFFFF⟩ ∧
    decode [(5, .noRule .U)] 0xFFFFF005 = .error (.unhandledOpcode 5) := ⟨rfl, rfl, rfl⟩

/-! ### One step: the helpers -/

/-- A state with some registers written. -/
def withRegs (rs : List (RegIdx × Word)) (s : State) : State := rs.foldl (fun s p => writeReg p.1 p.2 s) s

/-- A machine with a word at 0x40, where pc stands, and some registers and memory (95_test_vectors.md, conventions). -/
def bootWith (c : Config) (w : Nat) (rs : List (RegIdx × Word)) (m : Memory) : State :=
  placeFetchWord (withRegs rs (((State.created c).setPc 0x40).setMem m)) w

/-- The same under the default parameters. -/
def boot (w : Nat) (rs : List (RegIdx × Word)) (m : Memory := []) : State := bootWith defaultConfig w rs m

/-- The state after a step. -/
def after (s : State) : State :=
  match step s with
  | .next t => t
  | _ => s

/-- One step writes `v` to rd, continues at 0x44 and changes nothing else. -/
def gives (s : State) (rd : RegIdx) (v : Word) : Bool :=
  after s == ((writeReg rd v s).setPc 0x44).setOutcome (some .continued)

/-- One step takes the fault, with pc at 0x44 and nothing else changed. -/
def faults (s : State) (f : Fault) : Bool :=
  after s == ((s.setPc 0x44).setRun (.halted (.faulted f))).setOutcome (some (.faulted f))

/-- One step goes to an address and changes nothing else. -/
def goesTo (s : State) (target : Word) : Bool := after s == (s.setPc target).setOutcome (some .continued)

/-- The default parameters with the sentinel results of a division by zero. -/
def sentinelConfig : Config := { defaultConfig with divZero := .sentinel }

/-- The default parameters with big-endian memory. -/
def bigConfig : Config := { defaultConfig with byteOrder := .big }

/-! ### ALU -/

/-- A2, A3: x0 stays 0; source and destination the same register. -/
theorem test_add : gives (boot 0x00041001 [(1, 5), (2, 7)]) 0 12 ∧
    gives (boot 0x00063181 [(3, 0x40000000)]) 3 0x80000000 := by decide
/-- A4. -/
theorem test_sub : gives (boot 0x00041182 [(1, 0x80000000), (2, 1)]) 3 0x7FFFFFFF := by decide
/-- A5, A6. -/
theorem test_mul : gives (boot 0x00041183 [(1, 0xFFFFFFFF), (2, 0xFFFFFFFF)]) 3 1 ∧
    gives (boot 0x00041183 [(1, 0x80000000), (2, 0xFFFFFFFF)]) 3 0x80000000 := by decide
/-- A7, A9. -/
theorem test_div : gives (boot 0x00041184 [(1, 0x80000000), (2, 0xFFFFFFFF)]) 3 0x80000000 ∧
    gives (boot 0x00041184 [(1, 7), (2, 0xFFFFFFFE)]) 3 0xFFFFFFFD := by decide
/-- A11, A13. -/
theorem test_div_by_zero : faults (boot 0x00041184 [(1, 5)]) (.divideByZero 0x40) ∧
    gives (bootWith sentinelConfig 0x00041184 [(1, 5)] []) 3 0xFFFFFFFF := by decide
/-- A8, A10, and -7 rem 2 = -1 (41_alu.md R205: the remainder has the sign of the dividend). -/
theorem test_rem : gives (boot 0x00041185 [(1, 0x80000000), (2, 0xFFFFFFFF)]) 3 0 ∧
    gives (boot 0x00041185 [(1, 7), (2, 0xFFFFFFFE)]) 3 1 ∧
    gives (boot 0x00041185 [(1, 0xFFFFFFF9), (2, 2)]) 3 0xFFFFFFFF := by decide
/-- A12, A14. -/
theorem test_rem_by_zero : faults (boot 0x00041185 [(1, 5)]) (.divideByZero 0x40) ∧
    gives (bootWith sentinelConfig 0x00041185 [(1, 5)] []) 3 5 := by decide
/-- 41_alu.md R206, by hand. -/
theorem test_and : gives (boot 0x00041186 [(1, 0xFF00FF00), (2, 0x0FF00FF0)]) 3 0x0F000F00 := by decide
/-- 41_alu.md R207, by hand. -/
theorem test_or : gives (boot 0x00041187 [(1, 0xFF00FF00), (2, 0x0FF00FF0)]) 3 0xFFF0FFF0 := by decide
/-- 41_alu.md R208, by hand. -/
theorem test_xor : gives (boot 0x00041188 [(1, 0xFF00FF00), (2, 0x0FF00FF0)]) 3 0xF0F0F0F0 := by decide
/-- A15. -/
theorem test_sll : gives (boot 0x00041189 [(1, 0x12345678), (2, 32)]) 3 0x12345678 := by decide
/-- A16. -/
theorem test_srl : gives (boot 0x0004118A [(1, 0x80000000), (2, 31)]) 3 1 := by decide
/-- A17, A18. -/
theorem test_sra : gives (boot 0x0004118B [(1, 0xFFFFFFFF), (2, 31)]) 3 0xFFFFFFFF ∧
    gives (boot 0x0004118B [(1, 0x7FFFFFFF), (2, 0xFFFFFFE4)]) 3 0x07FFFFFF := by decide
/-- A19, A20. -/
theorem test_slt : gives (boot 0x0004118C [(1, 0x80000000), (2, 0x7FFFFFFF)]) 3 1 ∧
    gives (boot 0x0004118C [(1, 0x7FFFFFFF), (2, 0x80000000)]) 3 0 := by decide
/-- A22, A23. -/
theorem test_addi : gives (boot 0x8000118D []) 3 0xFFFFC000 ∧ gives (boot 0x0000118D [(1, 7)]) 3 7 := by decide
/-- A24, A25. -/
theorem test_subi : gives (boot 0xFFFE118E [(1, 0xFFFFFFFF)]) 3 0 ∧ gives (boot 0x8000118E []) 3 0x4000 := by decide
/-- A26. -/
theorem test_andi : gives (boot 0x7FFE118F [(1, 0xFFFFFFFF)]) 3 0x3FFF := by decide
/-- A27. -/
theorem test_ori : gives (boot 0xFFFE1190 []) 3 0xFFFFFFFF := by decide
/-- A28. -/
theorem test_xori : gives (boot 0x00001191 [(1, 0xDEADBEEF)]) 3 0xDEADBEEF := by decide
/-- A29, A30. -/
theorem test_slli : gives (boot 0xFFFE1192 [(1, 1)]) 3 0x80000000 ∧
    gives (boot 0x00401192 [(1, 0xABCD)]) 3 0xABCD := by decide
/-- A31. -/
theorem test_srli : gives (boot 0x00421193 [(1, 0x80000000)]) 3 0x40000000 := by decide
/-- A32. -/
theorem test_srai : gives (boot 0x003E1194 [(1, 0x80000000)]) 3 0xFFFFFFFF := by decide
/-- A33, A34. -/
theorem test_slti : gives (boot 0x80001195 [(1, 0xFFFFBFFF)]) 3 1 ∧
    gives (boot 0x80001195 [(1, 0xFFFFC000)]) 3 0 := by decide

/-! ### Loads and stores -/

/-- The start memory of M1 to M14. -/
def mem100 : Memory := [(0x100, 0xbb), (0x101, 0xaa), (0x102, 0x99), (0x103, 0x88), (0x104, 0x01), (0x105, 0x7f)]

/-- M7, M8. -/
theorem test_lb : gives (boot 0x00001016 [(1, 0x100)] mem100) 0 0xFFFFFFBB ∧
    gives (boot 0x00001196 [(1, 0xFFF)] [(0xFFF, 0x80)]) 3 0xFFFFFF80 := by decide
/-- M6: rd = 0 discards the write, not the access. -/
theorem test_lb_out_of_bounds :
    faults (boot 0x00001016 [(1, 0x1000)]) (.outOfBounds 0x1000 1 .load 0x40) := by decide
/-- 0x8899 sign-extended and 0x7f01 not (42_load_store.md R242), by hand. -/
theorem test_lh : gives (boot 0x00001197 [(1, 0x102)] mem100) 3 0xFFFF8899 ∧
    gives (boot 0x00001197 [(1, 0x104)] mem100) 3 0x7F01 := by decide
/-- M9, and the big-endian half-word 0x9988 at 0x102 (20_memory.md R63). -/
theorem test_lh_bounds_and_order : faults (boot 0x00001197 [(1, 0xFFF)]) (.outOfBounds 0xFFF 2 .load 0x40) ∧
    gives (bootWith bigConfig 0x00001197 [(1, 0x102)] mem100) 3 0xFFFF9988 := by decide
/-- M1, M4, M5. -/
theorem test_lw : gives (boot 0x00001198 [(1, 0x101)] mem100) 3 0x018899AA ∧
    gives (boot 0x02021198 [(1, 0xFFFFFFFF)] mem100) 3 0x8899AABB ∧
    gives (boot 0x00001098 [(1, 0x100)] mem100) 1 0x8899AABB := by decide
/-- M2, M3. -/
theorem test_lw_bounds :
    gives (boot 0x00001198 [(1, 0xFFC)] [(0xFFC, 1), (0xFFD, 2), (0xFFE, 3), (0xFFF, 4)]) 3 0x04030201 ∧
    faults (boot 0xFFFE1198 []) (.outOfBounds 0xFFFFFFFF 4 .load 0x40) := by decide

/-- One step writes these bytes from an address up, continues at 0x44 and changes nothing else. -/
def stores (s : State) (a : Nat) (bs : List Byte) : Bool :=
  after s == ((s.setMem (s.mem.writeBytes a bs)).setPc 0x44).setOutcome (some .continued)

/-- M10. -/
theorem test_sb : stores (boot 0x00001119 [(1, 0x100), (2, 0xFFFFFF42)] mem100) 0x100 [0x42] := by decide
/-- The low half-word of x2, little-endian and big-endian (42_load_store.md R245), by hand. -/
theorem test_sh : stores (boot 0x0000111A [(1, 0x100), (2, 0xABCD1234)] mem100) 0x100 [0x34, 0x12] ∧
    stores (bootWith bigConfig 0x0000111A [(1, 0x100), (2, 0xABCD1234)] mem100) 0x100 [0x12, 0x34] := by decide
/-- M11. -/
theorem test_sh_out_of_bounds :
    faults (boot 0x0000111A [(1, 0xFFF), (2, 0x1234)]) (.outOfBounds 0xFFF 2 .store 0x40) := by decide
/-- M12, M13. -/
theorem test_sw : stores (boot 0x0000109B [(1, 0x100)]) 0x100 [0x00, 0x01, 0x00, 0x00] ∧
    stores (boot 0xFFF0111B [(1, 0x108), (2, 0xCAFEBABE)]) 0x100 [0xbe, 0xba, 0xfe, 0xca] := by decide
/-- M14. -/
theorem test_sw_out_of_bounds :
    faults (boot 0x0000111B [(1, 0xFFE), (2, 0x12345678)]) (.outOfBounds 0xFFE 4 .store 0x40) := by decide

/-! ### Branches and jumps -/

/-- B5, B7. -/
theorem test_beq : goesTo (boot 0x7FFE001C []) 0x3FFF ∧ goesTo (boot 0x8000009C [(1, 1)]) 0x44 := by decide
/-- B4, and B4 with a second register that differs. -/
theorem test_bne : goesTo (boot 0x0400109D [(1, 5)]) 0x44 ∧
    goesTo (boot 0x0400209D [(1, 5), (2, 6)]) 0x200 := by decide
/-- B1, and equal operands are not less. -/
theorem test_blt : goesTo (boot 0x0400209E [(1, 0x80000000), (2, 0x7FFFFFFF)]) 0x200 ∧
    goesTo (boot 0x0400209E [(1, 3), (2, 3)]) 0x44 := by decide
/-- B2, B3. -/
theorem test_bge : goesTo (boot 0x0400209F [(1, 0x7FFFFFFF), (2, 0x80000000)]) 0x200 ∧
    goesTo (boot 0x0400109F [(1, 0x80000000)]) 0x200 := by decide

/-- One step goes to an address, links 0x44 in rd and changes nothing else. -/
def linksAndGoesTo (s : State) (rd : RegIdx) (target : Word) : Bool :=
  after s == ((writeReg rd 0x44 s).setPc target).setOutcome (some .continued)

/-- B8, B10. -/
theorem test_jal : linksAndGoesTo (boot 0xFFFFF0A1 []) 1 0xFFFFF ∧ linksAndGoesTo (boot 0x00080021 []) 0 0x80 := by
  decide
/-- B12, B14. -/
theorem test_jalr : linksAndGoesTo (boot 0x000250A0 [(5, 0xFFFFFFFF)]) 1 0 ∧
    linksAndGoesTo (boot 0x000052A0 [(5, 0x300)]) 5 0x300 := by decide

/-! ### System calls and breakpoint -/

/-- The start memory of S1 to S9. -/
def hi : Memory := [(0x80, 0x48), (0x81, 0x69), (0x82, 0x0a)]

/-- An ECALL with its registers. -/
def call (a7 a0 a1 a2 : Word) : State := boot 0x22 [(17, a7), (10, a0), (11, a1), (12, a2)] hi

/-- S1, S6, S8: the events, and nothing but pc and the channel changes. -/
theorem test_ecall_write :
    after (call 64 1 0x80 3) =
      (((call 64 1 0x80 3).setOutput [⟨.stdout, [0x48, 0x69, 0x0a]⟩]).setPc 0x44).setOutcome (some .continued) ∧
    (after (call 64 1 0x1000 0)).output = [⟨.stdout, []⟩] ∧
    (after (call 64 2 0x80 5)).output = [⟨.stderr, [0x48, 0x69, 0x0a, 0, 0]⟩] := by decide
/-- S4 (the fd check comes first), S5, S7, S10. -/
theorem test_ecall_faults : faults (call 64 0 0xFFFFFFFF 3) (.invalidSyscallArgument 0 0x40) ∧
    faults (call 64 1 0xFFE 3) (.outOfBounds 0xFFE 3 .syscall 0x40) ∧
    faults (call 64 1 0x1001 0) (.outOfBounds 0x1001 0 .syscall 0x40) ∧
    faults (call 0x140 1 0 0) (.unhandledSyscall 0x140 0x40) := by decide
/-- S12, V7: the exit, and its outcome again at the next step. -/
theorem test_ecall_exit :
    (after (call 93 0xFFFFFFFF 0 0)).run = .halted (.exited 0xFFFFFFFF) ∧
    after (after (call 93 0xFFFFFFFF 0 0)) = after (call 93 0xFFFFFFFF 0 0) ∧
    (after (call 93 0xFFFFFFFF 0 0)).pc = 0x44 := by decide
/-- S13. -/
theorem test_ebreak : after (boot 0x23 []) = ((boot 0x23 []).setPc 0x44).setOutcome (some .breakpoint) := by decide

/-! ### Cycle, reset, host operations -/

/-- C1: the first step from reset. -/
theorem test_step_from_reset :
    (after State.reset).outcome = some (.faulted (.invalidOpcode 0 0 0)) ∧ (after State.reset).pc = 4 := by decide
/-- C2: a fetch out of bounds leaves pc. -/
theorem test_fetch_out_of_bounds :
    (after (State.reset.setPc 0xFFE)).run = .halted (.faulted (.outOfBounds 0xFFE 4 .fetch 0xFFE)) ∧
    (after (State.reset.setPc 0xFFE)).pc = 0xFFE := by decide
/-- C3, C5: the last word of memory; an unaligned fetch. -/
theorem test_fetch_edge_and_unaligned :
    (after ((State.reset.setPc 0xFFC).withFetchWord 32 0x23)).pc = 0x1000 ∧
    readReg (after ((State.reset.setPc 0x41).withFetchWord 32 0x0012050D)) 10 = 9 := by decide
/-- The big-endian machine fetches the word's high byte first (20_memory.md R63, P5). -/
theorem test_fetch_big_endian :
    wordAtPc (((State.created bigConfig).setMem [(0, 0x22), (1, 0x44), (2, 0x02), (3, 0x8D)])) = 0x2244028D := by
  decide
/-- V2: the first instruction after reset, placed for the host. -/
theorem test_with_fetch_word : readReg (after (State.reset.withFetchWord 32 0x000A050D)) 10 = 5 := by decide
/-- 70_reset_and_hazards.md R340, R345, R347. -/
theorem test_launch :
    ((launch [0x23, 0, 5] (after (call 64 1 0x80 3))).map fun t => (t.mem, t.pc, t.output.length)) =
      some ([(0, 0x23), (2, 5)], 0, 1) ∧
    loadImage (List.replicate 5 1) (State.created { defaultConfig with memSize := 4 }) = none := by decide
/-- 00_scope.md R16. -/
theorem test_read_accessors : hostReadMem (call 64 1 0x80 3) 0x7F 4 = some [0, 0x48, 0x69, 0x0a] ∧
    hostReadMem State.reset 0xFFF 2 = none ∧ hostReadReg (call 64 1 0x80 3) 11 = 0x80 ∧
    hostReadPc (call 64 1 0x80 3) = 0x40 := by decide

/-! ### The assembler's side -/

/-- 10_state.md R33, R38, 30_encoding.md R122: names in any case; `fp` and `pc` name no register. -/
theorem test_register_names : registerOfToken ['A', '7'] = some 17 ∧ registerOfToken ['x', '3', '1'] = some 31 ∧
    registerOfToken ['t', '3'] = some 28 ∧ registerOfToken ['f', 'p'] = none ∧ registerOfToken ['p', 'c'] = none ∧
    registerOfToken ['x', '3', '2'] = none := by decide
/-- 30_encoding.md R123; -1 and 32768 in 15 bits, 0x100000 in 20 bits as in V1. -/
theorem test_immediate_operands :
    immediateField 15 ['-', '1'] = some 0x7FFF ∧ immediateField 15 ['3', '2', '7', '6', '8'] = some 0 ∧
    immediateField 20 ['0', 'x', '1', '0', '0', '0', '0', '0'] = some 0 ∧
    immediateOfToken ['0', 'x', 'f', 'F'] = some 255 ∧ immediateOfToken ['-', '0', 'x', 'a'] = some (-10) ∧
    immediateOfToken [Char.ofNat 39, 'H', Char.ofNat 39] = some 0x48 ∧
    immediateOfToken [Char.ofNat 39, Char.ofNat 92, 'n', Char.ofNat 39] = some 10 ∧
    immediateOfToken ['1', 'f'] = none ∧ immediateOfToken ['0', 'x'] = none ∧ immediateOfToken ['-'] = none := by
  decide
/-- V3, V5, P2: the words of the expansions. -/
theorem test_pseudo_words :
    (Pseudo.push 10).expand.toOption.map (List.map (encode defaultOpcodes)) =
      some [some 0x0000251B, some 0x0008210E] ∧
    (Pseudo.pop 11).expand.toOption.map (List.map (encode defaultOpcodes)) =
      some [some 0x0008210D, some 0x00002598] ∧
    (Pseudo.jr 0x24).expand.toOption.map (List.map (encode defaultOpcodes)) = some [some 0x000240A1] ∧
    Pseudo.ret.expand.toOption.map (List.map (encode defaultOpcodes)) = some [some 0x00001020] ∧
    (Pseudo.seqz).expand.toOption = none := by decide
/-- V4: the section order and the image. -/
theorem test_section_order :
    imageOf (finalOrder ["text", "data"]
      [⟨"data", Directive.image .little (.words [0x11223344])⟩,
       ⟨"text", wordBytes .little 0x000A050D ++ wordBytes .little 0x00000023⟩]) =
      [0x0d, 0x05, 0x0a, 0, 0x23, 0, 0, 0, 0x44, 0x33, 0x22, 0x11] := by decide
/-- V3, V6, P3: a symbol's value, a patched word, an undefined symbol, a format with no immediate. -/
theorem test_symbols_and_patches :
    patchWord defaultOpcodes 0x00000021 8 = .ok 0x00008021 ∧
    patchWord defaultOpcodes 0x0000058D 0x20 = .ok 0x0040058D ∧
    patchWord defaultOpcodes 0x00041181 8 = .error .noImmediateField ∧
    symbolAddress [⟨"text", List.replicate 32 0⟩, ⟨"data", [0x48]⟩] [("msg", .label "data" 0)] "msg" = .ok 0x20 ∧
    symbolAddress [] [] "nowhere" = .error (.undefinedSymbol "nowhere") := ⟨by decide, by decide, by decide, rfl, rfl⟩

/-- The memory an assembly loads, as its first bytes. -/
def assembled (order : List String) (stmts : List AsmStmt) (n : Nat) : Except AsmError (List Byte) :=
  match assemble order stmts State.reset with
  | .ok t => .ok (t.mem.readBytes 0 n)
  | .error e => .error e

/-- V3: a forward reference. -/
theorem test_assemble_forward_reference :
    assembled [] [.pseudo (.j 0) (some "end"), .instr (.addi 10 0 1) none, .label "end", .instr .ebreak none] 12 =
      .ok [0x21, 0x80, 0, 0, 0x0d, 0x05, 0x02, 0, 0x23, 0, 0, 0] := by rfl
/-- V6: an undefined symbol. -/
theorem test_assemble_undefined_symbol :
    assembled [] [.pseudo (.j 0) (some "nowhere")] 4 = .error (.undefinedSymbol "nowhere") := by rfl
/-- 90_conflicts.md C4: `.set` overrides a label, and its value takes no base. -/
theorem test_assemble_set :
    assembled [] [.data (.skip 8), .label "a", .setSymbol "a" 0x20, .pseudo (.la 11 0) (some "a")] 12 =
      .ok [0, 0, 0, 0, 0, 0, 0, 0, 0x8d, 0x05, 0x40, 0] := by rfl
/-- P3's LA across sections, with the data section first in the source; a reference on an R format. -/
theorem test_assemble_sections :
    assembled ["text", "data"] [.sect "data", .label "msg", .data (.chars [0x48]), .sect "text",
      .pseudo (.la 11 0) (some "msg")] 5 = .ok [0x8d, 0x05, 0x08, 0, 0x48] ∧
    assembled [] [.instr (.add 3 1 2) (some "a"), .label "a"] 4 = .error .noImmediateField := ⟨rfl, rfl⟩

/-! ### Witnesses: for each statement with hypotheses, concrete terms that meet them together, clause by clause at the
edge of its range. -/

/-- ADD x3, x1, x2 at 0x40. -/
def adds : State := boot 0x00041181 [(1, 0x7FFFFFFF), (2, 1)]

/-- A machine whose last fetch address is this pc, or one above it. -/
def atPc (pc : Word) : State := State.reset.setPc pc

/-- A machine under another opcode table. -/
def withTable (t : OpcodeTable) : State := State.created { defaultConfig with opcodes := t }

/-- A machine with four bytes of memory. -/
def tiny : State := State.created { defaultConfig with memSize := 4 }

/-- Two registers, x1 and x2, under a policy for the zero divisor. -/
def pair (p : DivZero) (a b : Word) : State := withRegs [(1, a), (2, b)] (State.created { defaultConfig with divZero := p })

theorem test_witness_StepKeepsTheInvariant : Inv adds ∧ step adds = .next (after adds) :=
  ⟨⟨by decide, by decide, by decide, Or.inl rfl⟩, rfl⟩

theorem test_witness_StepRunsTheDecodedInstruction : Fetches adds (.add 3 1 2) := ⟨rfl, by decide, rfl⟩

theorem test_witness_FetchReadsOneWordAndAdvancesPc :
    (atPc 0xFFC).pc.toNat + 4 ≤ (atPc 0xFFC).cfg.memSize ∧
    ((atPc 0xFFD).cfg.memSize < (atPc 0xFFD).pc.toNat + 4 ∧ (atPc 0xFFD).run = .running) := by decide

theorem test_witness_OpcodeWithoutItypeFaultsInvalid :
    (State.reset.run = .running ∧ State.reset.pc.toNat + 4 ≤ State.reset.cfg.memSize ∧
      OpcodeTable.wf State.reset.cfg.opcodes ∧
      ∀ e ∈ State.reset.cfg.opcodes, e.1 ≠ opcodeField (wordAtPc State.reset)) ∧
    ((withTable [(0, .noItype)]).run = .running ∧
      (withTable [(0, .noItype)]).pc.toNat + 4 ≤ (withTable [(0, .noItype)]).cfg.memSize ∧
      OpcodeTable.wf (withTable [(0, .noItype)]).cfg.opcodes ∧
      (opcodeField (wordAtPc (withTable [(0, .noItype)])), OpcodeSlot.noItype) ∈
        (withTable [(0, .noItype)]).cfg.opcodes) := by decide

theorem test_witness_OpcodeWithoutRuleFaultsUnhandled :
    (withTable [(0, .noRule .U)]).run = .running ∧
    (withTable [(0, .noRule .U)]).pc.toNat + 4 ≤ (withTable [(0, .noRule .U)]).cfg.memSize ∧
    OpcodeTable.wf (withTable [(0, .noRule .U)]).cfg.opcodes ∧
    (opcodeField (wordAtPc (withTable [(0, .noRule .U)])), OpcodeSlot.noRule .U) ∈
      (withTable [(0, .noRule .U)]).cfg.opcodes := by decide

theorem test_witness_HaltedCoreRepeatsItsOutcome :
    (after State.reset).run = .halted (.faulted (.invalidOpcode 0 0 0)) ∧
    loadImage [1] (after State.reset) = some ((after State.reset).setMem [(0, 1)]) := ⟨by decide, rfl⟩

theorem test_witness_OnlyExitAndFaultLatch :
    (step adds = .next (after adds) ∧ adds.run = .running) ∧
    (step (after State.reset) = .next (after (after State.reset)) ∧
      (after State.reset).run = .halted (.faulted (.invalidOpcode 0 0 0))) := ⟨⟨rfl, rfl⟩, rfl, rfl⟩

theorem test_witness_FaultsArePrecise :
    (State.reset.run = .running ∧ step State.reset = .next (after State.reset) ∧
      (after State.reset).outcome = some (.faulted (.invalidOpcode 0 0 0))) ∧
    ((atPc 0xFFD).run = .running ∧ step (atPc 0xFFD) = .next (after (atPc 0xFFD)) ∧
      (after (atPc 0xFFD)).outcome = some (.faulted (.outOfBounds 0xFFD 4 .fetch 0xFFD))) :=
  ⟨⟨rfl, rfl, rfl⟩, rfl, rfl, rfl⟩

theorem test_witness_FirstFailingCheckDecidesTheFault :
    adds.run = .running ∧ step adds = .next (after adds) := ⟨rfl, rfl⟩

theorem test_witness_PcAfterAStep :
    (Fetches adds (.add 3 1 2) ∧ step adds = .next (after adds) ∧ (after adds).outcome = some .continued) ∧
    (Fetches (boot 0x23 []) .ebreak ∧ step (boot 0x23 []) = .next (after (boot 0x23 [])) ∧
      (after (boot 0x23 [])).outcome = some .breakpoint) :=
  ⟨⟨⟨rfl, by decide, rfl⟩, rfl, rfl⟩, ⟨rfl, by decide, rfl⟩, rfl, rfl⟩

/-- The state an instruction answers. -/
def afterExec (i : Instr) (s : State) : State :=
  match exec i s with
  | .next t => t
  | _ => s

theorem test_witness_OnlyTheDestinationRegisterChanges :
    exec (.add 3 1 2) adds = .next (afterExec (.add 3 1 2) adds) ∧ (Instr.add 3 1 2).dest ≠ some 4 :=
  ⟨rfl, by decide⟩

theorem test_witness_OnlyStoresWriteMemory :
    exec (.sb 2 1 0) adds = .next (afterExec (.sb 2 1 0) adds) ∧
    exec (.sh 2 1 0) adds = .next (afterExec (.sh 2 1 0) adds) ∧
    exec (.sw 2 1 0) adds = .next (afterExec (.sw 2 1 0) adds) ∧
    exec (.add 3 1 2) adds = .next (afterExec (.add 3 1 2) adds) := ⟨rfl, rfl, rfl, rfl⟩

theorem test_witness_OnlyTheWriteCallEmits :
    exec .ecall (call 64 1 0x80 3) = .next (afterExec .ecall (call 64 1 0x80 3)) := rfl

theorem test_witness_OutputOnlyGrowsAlongARun :
    Host.Core.run Sys2Proof.core 1 (call 64 1 0x80 3) = .next (after (call 64 1 0x80 3)) := rfl

theorem test_witness_AccessesAreBoundedAndOrdered :
    (0xFFC : Word).toNat + 4 ≤ State.reset.cfg.memSize ∧ State.reset.cfg.memSize < (0xFFD : Word).toNat + 4 := by decide

theorem test_witness_SameWidthAccessHidesTheByteOrder :
    memWrite State.reset 0xFFE 2 0x1234 0 =
      .ok (State.reset.setMem (State.reset.mem.writeBytes 0xFFE [0x34, 0x12])) := rfl

theorem test_witness_BulkReadGivesTheBytesInOrder :
    (0x1000 : Word).toNat + (0 : Word).toNat ≤ State.reset.cfg.memSize ∧
    State.reset.cfg.memSize < (0x1001 : Word).toNat + (0 : Word).toNat := by decide

theorem test_witness_CanonicalMemoriesThatReadAlikeAreEqual :
    Memory.wf hi ∧ Memory.wf (Memory.write hi 0x80 0x48) ∧ ∀ a, hi.read a = (Memory.write hi 0x80 0x48).read a :=
  ⟨by decide, by decide, fun _ => rfl⟩

theorem test_witness_LaunchAndReload :
    ([1, 2, 3, 4] : List Byte).length ≤ tiny.cfg.memSize ∧ tiny.cfg.memSize < ([1, 2, 3, 4, 5] : List Byte).length := by
  decide

theorem test_witness_StepAfterResetFaultsOnTheZeroWord :
    tiny.cfg.opcodes = defaultOpcodes ∧ 4 ≤ tiny.cfg.memSize := by decide

theorem test_witness_DecodeInvertsEncode :
    OpcodeTable.wf [(0x7F, .instr .jal)] ∧ Instr.wf [(0x7F, .instr .jal)] (.jal 31 0xFFFFF) := by decide

theorem test_witness_EncodingTruncatesAndDecodesBack :
    slotOf defaultOpcodes (BitVec.ofInt 7 0x0D) = .instr .addi ∧
    slotOf defaultOpcodes (BitVec.ofInt 7 (-93)) = .instr .ebreak := by decide

theorem test_witness_ReservedOpcodesAreExactlyTheInvalidOnes :
    opcodeField 0 = 0 ∧ 0x24 ≤ (opcodeField 0x24).toNat ∧
    (1 ≤ (opcodeField 1).toNat ∧ (opcodeField 1).toNat ≤ 0x23) ∧
    (1 ≤ (opcodeField 0x23).toNat ∧ (opcodeField 0x23).toNat ≤ 0x23) := by decide

theorem test_witness_UnusedBitsAreIgnored :
    (slotOf defaultOpcodes (opcodeField 0xFFC41181) = .instr .add ∧ Mnemonic.itype .add = .R) ∧
    (slotOf defaultOpcodes (opcodeField 0xFFFFFFA2) = .instr .ecall ∧ Mnemonic.itype .ecall = .E) := by decide

theorem test_witness_PatchReplacesTheImmediateAlone :
    (slotOf defaultOpcodes (opcodeField 0x0000058D) = .instr .addi ∧ Mnemonic.itype .addi = .I) ∧
    (slotOf defaultOpcodes (opcodeField 0x0000029D) = .instr .bne ∧ Mnemonic.itype .bne = .S) ∧
    (slotOf defaultOpcodes (opcodeField 0x00000021) = .instr .jal ∧ Mnemonic.itype .jal = .U) ∧
    (slotOf defaultOpcodes (opcodeField 0x00041181) = .instr .add ∧ Mnemonic.itype .add = .R) ∧
    (slotOf defaultOpcodes (opcodeField 0x00000022) = .instr .ecall ∧ Mnemonic.itype .ecall = .E) := by decide

theorem test_witness_ImmediateOperandsHaveTheirValues :
    (([9] : List Nat) ≠ [] ∧ ∀ d ∈ ([9] : List Nat), d < 10) ∧
    (([15] : List Nat) ≠ [] ∧ ∀ d ∈ ([15] : List Nat), d < 16) ∧
    ('(').toNat ≠ 39 ∧ ('(').toNat ≠ 92 ∧
    (['7'].head? ≠ some '-' ∧ immediateOfToken ['7'] = some 7) := by decide

/-- Every opcode a statement's `EncodedR`, `EncodedI`, `EncodedU` or `EncodedE` names is the opcode of a word. -/
theorem test_witness_Encoded : ∀ op : Opcode, opcodeField (op.setWidth 32) = op := by decide

theorem test_witness_DivTruncatesTowardZero :
    ((readReg (pair .fault 5 0) 2).toInt = 0 ∧ (pair .fault 5 0).cfg.divZero = .fault) ∧
    ((readReg (pair .sentinel 5 0) 2).toInt = 0 ∧ (pair .sentinel 5 0).cfg.divZero = .sentinel) ∧
    ((readReg (pair .fault 0x80000000 0xFFFFFFFF) 1).toInt = -2 ^ 31 ∧
      (readReg (pair .fault 0x80000000 0xFFFFFFFF) 2).toInt = -1) ∧
    ((readReg (pair .fault 0x80000001 0xFFFFFFFF) 2).toInt ≠ 0 ∧
      ¬((readReg (pair .fault 0x80000001 0xFFFFFFFF) 1).toInt = -2 ^ 31 ∧
        (readReg (pair .fault 0x80000001 0xFFFFFFFF) 2).toInt = -1)) := by decide

/-- The hypotheses of REM are those of DIV. -/
theorem test_witness_RemComplementsDiv :
    ((readReg (pair .fault 5 0) 2).toInt = 0 ∧ (pair .fault 5 0).cfg.divZero = .fault) ∧
    ((readReg (pair .sentinel 5 0) 2).toInt = 0 ∧ (pair .sentinel 5 0).cfg.divZero = .sentinel) ∧
    ((readReg (pair .fault 0x80000000 0xFFFFFFFF) 1).toInt = -2 ^ 31 ∧
      (readReg (pair .fault 0x80000000 0xFFFFFFFF) 2).toInt = -1) ∧
    ((readReg (pair .fault 0x80000000 1) 2).toInt ≠ 0 ∧
      ¬((readReg (pair .fault 0x80000000 1) 1).toInt = -2 ^ 31 ∧
        (readReg (pair .fault 0x80000000 1) 2).toInt = -1)) := by decide

theorem test_witness_DivisionIdentity :
    (0xFFFFFFFF : Word) ≠ 0 ∧ ¬((0x80000001 : Word).toInt = -2 ^ 31 ∧ (0xFFFFFFFF : Word).toInt = -1) := by decide

/-- x1 at the last address of each width, and one above it. -/
theorem test_witness_LoadsExtendTheBytesRead :
    (∀ p ∈ [(0xFFF, 1), (0xFFE, 2), (0xFFC, 4)],
      (readReg (pair .fault (BitVec.ofNat 32 p.1) 0) 1 + (0 : BitVec 15).signExtend 32).toNat + p.2 ≤
        (pair .fault (BitVec.ofNat 32 p.1) 0).cfg.memSize) ∧
    (∀ p ∈ [(0x1000, 1), (0xFFF, 2), (0xFFD, 4)],
      (pair .fault (BitVec.ofNat 32 p.1) 0).cfg.memSize <
        (readReg (pair .fault (BitVec.ofNat 32 p.1) 0) 1 + (0 : BitVec 15).signExtend 32).toNat + p.2) := by decide

/-- x2 at the last address of each width, and one above it. -/
theorem test_witness_StoresWriteTheLowBytes :
    (∀ p ∈ [(0xFFF, 1), (0xFFE, 2), (0xFFC, 4)],
      (readReg (pair .fault 7 (BitVec.ofNat 32 p.1)) 2 + (0 : BitVec 15).signExtend 32).toNat + p.2 ≤
        (pair .fault 7 (BitVec.ofNat 32 p.1)).cfg.memSize) ∧
    (∀ p ∈ [(0x1000, 1), (0xFFF, 2), (0xFFD, 4)],
      (pair .fault 7 (BitVec.ofNat 32 p.1)).cfg.memSize <
        (readReg (pair .fault 7 (BitVec.ofNat 32 p.1)) 2 + (0 : BitVec 15).signExtend 32).toNat + p.2) := by decide

/-- M15: SW x2, x1, 4 with x1 = 0x40 and pc, advanced, at 0x44. -/
def selfModifying : State := (withRegs [(1, 0x40), (2, 0x0004050D)] State.reset).setPc 0x44

theorem test_witness_NextFetchSeesTheStore :
    exec (.sw 2 1 4) selfModifying = .next (afterExec (.sw 2 1 4) selfModifying) ∧
    (afterExec (.sw 2 1 4) selfModifying).outcome = some .continued ∧
    readReg selfModifying 1 + (4 : BitVec 15).signExtend 32 = selfModifying.pc := ⟨rfl, rfl, by decide⟩

/-- B8; then each branch taken, with the least immediate that has bit 14 set (B6 for BEQ). -/
theorem test_witness_BadTargetFaultsAtTheNextFetch :
    ((Instr.jal 1 0xFFFFF).mnemonic ∈ [Mnemonic.beq, .bne, .blt, .bge, .jal, .jalr] ∧ State.reset.run = .running ∧
      exec (.jal 1 0xFFFFF) State.reset = .next (afterExec (.jal 1 0xFFFFF) State.reset) ∧
      State.reset.cfg.memSize < (afterExec (.jal 1 0xFFFFF) State.reset).pc.toNat + 4) ∧
    (Config.wf (pair .fault 5 6).cfg ∧ (pair .fault 5 6).run = .running ∧ 2 ^ 14 ≤ (0x4000 : BitVec 15).toNat) ∧
    readReg (pair .fault 5 6) 0 = readReg (pair .fault 5 6) 0 ∧
    readReg (pair .fault 5 6) 1 ≠ readReg (pair .fault 5 6) 2 ∧
    (readReg (pair .fault 5 6) 1).toInt < (readReg (pair .fault 5 6) 2).toInt ∧
    (readReg (pair .fault 5 6) 2).toInt ≥ (readReg (pair .fault 5 6) 1).toInt :=
  ⟨⟨by decide, rfl, rfl, by decide⟩, ⟨by decide, rfl, by decide⟩, rfl, by decide, by decide, by decide⟩

theorem test_witness_WriteCallEmitsTheBytes :
    (readReg (call 64 1 0x1000 0) 17 = 64 ∧ readReg (call 64 1 0x1000 0) 10 = Fd.stdout.number ∧
      (readReg (call 64 1 0x1000 0) 11).toNat + (readReg (call 64 1 0x1000 0) 12).toNat ≤
        (call 64 1 0x1000 0).cfg.memSize) ∧
    (readReg (call 64 3 0x80 3) 17 = 64 ∧ readReg (call 64 3 0x80 3) 10 ≠ 1 ∧ readReg (call 64 3 0x80 3) 10 ≠ 2) ∧
    (readReg (call 64 2 0x1001 0) 17 = 64 ∧
      (readReg (call 64 2 0x1001 0) 10 = 1 ∨ readReg (call 64 2 0x1001 0) 10 = 2) ∧
      (call 64 2 0x1001 0).cfg.memSize <
        (readReg (call 64 2 0x1001 0) 11).toNat + (readReg (call 64 2 0x1001 0) 12).toNat) := by decide

theorem test_witness_ExitCallHaltsAndOtherCallsFault :
    readReg (call 93 7 0 0) 17 = 93 ∧ (readReg (call 0x140 7 0 0) 17 ≠ 64 ∧ readReg (call 0x140 7 0 0) 17 ≠ 93) := by
  decide

/-- EBREAK at 0x40 and the NOP of E7 at 0x44. -/
def breaks : State := boot 0x23 [] [(0x44, 0x0D)]

theorem test_witness_BreakpointDoesNotHalt : Fetches breaks .ebreak ∧ Fetches (advanced breaks) (.addi 0 0 0) :=
  ⟨⟨rfl, by decide, rfl⟩, rfl, by decide, rfl⟩

end Sys2Proof.Tests
end

section
/-! PROOFS. Registers (10_state.md R31, R32) and the halt latch (10_state.md R40). `exec_keepsLatchRule` and
`step_keepsLatchRule` say once how an instruction and a step of a running core can end: which next state they answer
as to `cfg`, `run` and `outcome`. -/

namespace Sys2Proof.Machine

/-! ### Registers -/

/-- Settles O18, from the rules for a register read and a register write. -/
theorem registerReadsAndWrites : Obligations.RegisterReadsAndWrites := by
  intro s r v
  exact ⟨readReg_zero s, writeReg_zero v s, readReg_writeReg r v s, writeReg_mem r v s, writeReg_pc r v s,
    writeReg_run r v s, writeReg_output r v s, writeReg_cfg r v s⟩

/-! ### The latch rule -/

/-- The latch rule of 10_state.md R40 for a state `t` that a step answers, where `before` was the halt state:
an outcome that does not latch leaves the halt state, one that latches is recorded in it. -/
inductive LatchedFrom (before : RunState) (t : State) : Prop where
  | continued (hrun : t.run = before) (hout : t.outcome = some .continued)
  | breakpoint (hrun : t.run = before) (hout : t.outcome = some .breakpoint)
  | halted (o : HaltOutcome) (hrun : t.run = .halted o) (hout : t.outcome = some o.toStep)

/-- The result is a next state that obeys the latch rule and has the parameters of `s`. -/
def KeepsLatchRule (s : State) (r : Result) : Prop :=
  ∃ t, r = .next t ∧ t.cfg = s.cfg ∧ LatchedFrom s.run t

/-! ### The ways a step ends -/

theorem Continued.keepsLatchRule {s t : State} {r : Result} (h : Continued s t) (hr : r = .next t) :
    KeepsLatchRule s r := by
  obtain ⟨hcfg, hrun, _, hout⟩ := h
  exact ⟨t, hr, hcfg, .continued hrun hout⟩

theorem FaultTaken.keepsLatchRule {f : Fault} {s t : State} {r : Result} (h : FaultTaken f s t)
    (hr : r = .next t) : KeepsLatchRule s r := by
  obtain ⟨hrun, hout, _, _, _, hcfg, _⟩ := h
  exact ⟨t, hr, hcfg, .halted (.faulted f) hrun hout⟩

theorem raise_keepsLatchRule (f : Fault) (s : State) : KeepsLatchRule s (raise f s) := by
  obtain ⟨t, ht, hfault⟩ := raise_spec f s
  exact hfault.keepsLatchRule ht

theorem exitWith_keepsLatchRule (c : Word) (s : State) : KeepsLatchRule s (exitWith c s) :=
  ⟨_, exitWith_eq c s, rfl, .halted (.exited c) rfl rfl⟩

theorem breakpoint_keepsLatchRule (s : State) : KeepsLatchRule s (breakpoint s) :=
  ⟨_, breakpoint_eq s, rfl, .breakpoint rfl rfl⟩

/-! ### The shapes of the instructions -/

theorem aluReg_keepsLatchRule (f : Word → Word → Word) (rd rs1 rs2 : RegIdx) (s : State) :
    KeepsLatchRule s (aluReg f rd rs1 rs2 s) := by
  obtain ⟨t, ht, _, _, _, hcont⟩ := aluReg_spec f rd rs1 rs2 s
  exact hcont.keepsLatchRule ht

theorem aluImm_keepsLatchRule (f : Word → Word → Word) (rd rs1 : RegIdx) (imm : BitVec 15) (s : State) :
    KeepsLatchRule s (aluImm f rd rs1 imm s) := by
  obtain ⟨t, ht, _, _, _, hcont⟩ := aluImm_spec f rd rs1 imm s
  exact hcont.keepsLatchRule ht

theorem aluDivision_keepsLatchRule (f : DivZero → Word → Word → Option Word) (rd rs1 rs2 : RegIdx) (s : State) :
    KeepsLatchRule s (aluDivision f rd rs1 rs2 s) := by
  obtain ⟨t, ht, h⟩ := aluDivision_spec f rd rs1 rs2 s
  split at h
  · obtain ⟨_, _, _, hcont⟩ := h
    exact hcont.keepsLatchRule ht
  · exact h.keepsLatchRule ht

theorem loadAt_keepsLatchRule (n : Nat) (ext : Nat → Word) (rd rs1 : RegIdx) (imm : BitVec 15) (s : State) :
    KeepsLatchRule s (loadAt n ext rd rs1 imm s) := by
  obtain ⟨t, ht, h⟩ := loadAt_spec n ext rd rs1 imm s
  split at h
  · obtain ⟨_, _, _, hcont⟩ := h
    exact hcont.keepsLatchRule ht
  · exact h.keepsLatchRule ht

theorem storeAt_keepsLatchRule (n : Nat) (rs1 rs2 : RegIdx) (imm : BitVec 15) (s : State) :
    KeepsLatchRule s (storeAt n rs1 rs2 imm s) := by
  obtain ⟨t, ht, h⟩ := storeAt_spec n rs1 rs2 imm s
  split at h
  · subst h
    exact ⟨_, ht, rfl, .continued rfl rfl⟩
  · exact h.keepsLatchRule ht

theorem branchIf_keepsLatchRule (c : Word → Word → Bool) (rs1 rs2 : RegIdx) (imm : BitVec 15) (s : State) :
    KeepsLatchRule s (branchIf c rs1 rs2 imm s) :=
  ⟨_, branchIf_spec c rs1 rs2 imm s, rfl, .continued rfl rfl⟩

theorem jumpLink_keepsLatchRule (rd : RegIdx) (target : Word) (s : State) :
    KeepsLatchRule s (jumpLink rd target s) := by
  obtain ⟨t, ht, _, _, _, hcont⟩ := jumpLink_spec rd target s
  exact hcont.keepsLatchRule ht

theorem syscallWrite_keepsLatchRule (s : State) : KeepsLatchRule s (syscallWrite s) := by
  obtain ⟨t, ht, h⟩ := syscallWrite_spec s
  split at h
  · exact h.keepsLatchRule ht
  · split at h
    · subst h
      exact ⟨_, ht, rfl, .continued rfl rfl⟩
    · exact h.keepsLatchRule ht

theorem execEcall_keepsLatchRule (s : State) : KeepsLatchRule s (execEcall s) := by
  unfold execEcall
  split
  · exact syscallWrite_keepsLatchRule s
  · split
    · exact exitWith_keepsLatchRule (readReg s regA0) s
    · exact raise_keepsLatchRule _ s

/-! ### Every instruction, every step -/

theorem exec_keepsLatchRule (i : Instr) (s : State) : KeepsLatchRule s (exec i s) := by
  cases i with
  | add rd rs1 rs2 | sub rd rs1 rs2 | mul rd rs1 rs2 | and rd rs1 rs2 | or rd rs1 rs2 | xor rd rs1 rs2
  | sll rd rs1 rs2 | srl rd rs1 rs2 | sra rd rs1 rs2 | slt rd rs1 rs2 =>
    exact aluReg_keepsLatchRule _ rd rs1 rs2 s
  | div rd rs1 rs2 | rem rd rs1 rs2 => exact aluDivision_keepsLatchRule _ rd rs1 rs2 s
  | addi rd rs1 imm | subi rd rs1 imm | andi rd rs1 imm | ori rd rs1 imm | xori rd rs1 imm
  | slli rd rs1 imm | srli rd rs1 imm | srai rd rs1 imm | slti rd rs1 imm =>
    exact aluImm_keepsLatchRule _ rd rs1 imm s
  | lb rd rs1 imm | lh rd rs1 imm | lw rd rs1 imm => exact loadAt_keepsLatchRule _ _ rd rs1 imm s
  | sb rs1 rs2 imm | sh rs1 rs2 imm | sw rs1 rs2 imm => exact storeAt_keepsLatchRule _ rs1 rs2 imm s
  | beq rs1 rs2 imm | bne rs1 rs2 imm | blt rs1 rs2 imm | bge rs1 rs2 imm =>
    exact branchIf_keepsLatchRule _ rs1 rs2 imm s
  | jalr rd rs1 imm => exact jumpLink_keepsLatchRule rd _ s
  | jal rd imm => exact jumpLink_keepsLatchRule rd _ s
  | ecall => exact execEcall_keepsLatchRule s
  | ebreak => exact breakpoint_keepsLatchRule s

/-- The fetch only advances pc, so what executes after it starts from the halt state and parameters of `s`. -/
theorem step_keepsLatchRule (s : State) (h : s.run = .running) : KeepsLatchRule s (step s) := by
  rw [step_running s h]
  split
  · split
    · exact raise_keepsLatchRule _ (advanced s)
    · exact exec_keepsLatchRule _ (advanced s)
  · exact raise_keepsLatchRule _ s

/-- The latch rule for a step of a running core that is known to answer `t`. -/
theorem latchedFrom_of_step {s t : State} (hrun : s.run = .running) (hstep : step s = .next t) :
    LatchedFrom .running t := by
  obtain ⟨u, hu, _, hlatch⟩ := step_keepsLatchRule s hrun
  obtain rfl : u = t := by simpa [hu] using hstep
  rwa [hrun] at hlatch

/-- Settles O10: a running core by the latch rule of its step, a halted one because it repeats its outcome. -/
theorem onlyExitAndFaultLatch : Obligations.OnlyExitAndFaultLatch := by
  intro s t hstep
  constructor
  · intro hrun
    cases latchedFrom_of_step hrun hstep with
    | continued hrun' hout => rw [hrun', hout]
    | breakpoint hrun' hout => rw [hrun', hout]
    | halted o hrun' hout => rw [hrun', hout]; cases o <;> rfl
  · intro o hhalt
    simpa [step_halted s o hhalt] using hstep.symm

end Sys2Proof.Machine
end

section
/-! PROOFS. Bounds-checked access (20_memory.md R62, R63, R70). `byteRank` names the place value of a byte in a datum;
the two byte-order laws below say, for both orders at once, what a read gathers and what a write lays down. -/

namespace Sys2Proof.Machine

/-! ### Byte order -/

/-- The place value, as a power of 256, of the byte at offset `k` of an `n`-byte datum (20_memory.md R63). -/
def byteRank (o : ByteOrder) (n k : Nat) : Nat :=
  match o with
  | .little => k
  | .big => n - 1 - k

@[simp] theorem byteRank_little (n k : Nat) : byteRank .little n k = k := rfl
@[simp] theorem byteRank_big (n k : Nat) : byteRank .big n k = n - 1 - k := rfl

/-- A byte string whose k-th byte is `f k` has the value of `f`'s bytes weighted from the least significant up. -/
theorem natOfBytesLE_eq_sum (bs : List Byte) (f : Nat → Byte) (hf : ∀ k (h : k < bs.length), bs[k] = f k) :
    natOfBytesLE bs = ∑ k ∈ Finset.range bs.length, (f k).toNat * 2 ^ (8 * k) := by
  induction bs generalizing f with
  | nil => rfl
  | cons b bs ih =>
    have hhead : b = f 0 := hf 0 (by simp)
    have htail : ∀ k (h : k < bs.length), bs[k] = f (k + 1) := fun k h => hf (k + 1) (by simpa using h)
    have hshift : ∀ k, (f (k + 1)).toNat * 2 ^ (8 * (k + 1)) = 256 * ((f (k + 1)).toNat * 2 ^ (8 * k)) := by
      intro k
      ring
    rw [natOfBytesLE, ih _ htail, List.length_cons, Finset.sum_range_succ', Finset.mul_sum, hhead]
    simp only [hshift, Nat.mul_zero, pow_zero, Nat.mul_one, Nat.add_comm]

/-- The value of a range of memory: each byte at its place value (20_memory.md R63). -/
theorem natOfBytes_readBytes (o : ByteOrder) (m : Memory) (a n : Nat) :
    natOfBytes o (m.readBytes a n) =
      ∑ k ∈ Finset.range n, (m.read (a + k)).toNat * 2 ^ (8 * byteRank o n k) := by
  cases o with
  | little =>
    have hsum := natOfBytesLE_eq_sum (m.readBytes a n) (fun k => m.read (a + k))
      fun k h => Memory.getElem_readBytes m a n k h
    simpa [natOfBytes] using hsum
  | big =>
    have hsum := natOfBytesLE_eq_sum (m.readBytes a n).reverse (fun k => m.read (a + (n - 1 - k)))
      fun k h => by simp [Memory.getElem_readBytes]
    rw [natOfBytes, hsum, List.length_reverse, Memory.length_readBytes, ← Finset.sum_range_reflect]
    refine Finset.sum_congr rfl fun k hk => ?_
    have hk' : n - 1 - (n - 1 - k) = k := Nat.sub_sub_self (Nat.le_sub_one_of_lt (Finset.mem_range.mp hk))
    simp only [hk', byteRank_big]

/-- The byte a value has at an offset is the one of that place value (20_memory.md R63). -/
theorem getElem_bytesOfNat (o : ByteOrder) (n v k : Nat) (h : k < (bytesOfNat o n v).length) :
    (bytesOfNat o n v)[k] = BitVec.ofNat 8 (v / 2 ^ (8 * byteRank o n k)) := by
  cases o with
  | little => simp [bytesOfNat, getElem_bytesOfNatLE, pow_mul]
  | big => simp [bytesOfNat, getElem_bytesOfNatLE, pow_mul]

/-! ### Access -/

/-- `MemRead` in bounds: the bytes of the range, each at its place value (20_memory.md R62, R63). -/
theorem memRead_inBounds (s : State) (a : Word) (n : Nat) (kind : AccessKind) (p : Word)
    (h : a.toNat + n ≤ s.cfg.memSize) :
    memRead s a n kind p = .ok (∑ k ∈ Finset.range n,
      (s.mem.read (a.toNat + k)).toNat * 2 ^ (8 * byteRank s.cfg.byteOrder n k)) := by
  rw [memRead_spec, if_pos h, natOfBytes_readBytes]

/-- `MemWrite` in bounds: each byte of the range takes the value's byte of its place value, and no other byte
changes (20_memory.md R62, R63). -/
theorem memWrite_inBounds (s : State) (a : Word) (n v : Nat) (p : Word) (h : a.toNat + n ≤ s.cfg.memSize) :
    ∃ m, memWrite s a n v p = .ok (s.setMem m) ∧ SameMemOutside a.toNat n s (s.setMem m) ∧
      ∀ k, k < n → m.read (a.toNat + k) = BitVec.ofNat 8 (v / 2 ^ (8 * byteRank s.cfg.byteOrder n k)) := by
  refine ⟨_, by rw [memWrite_spec, if_pos h], fun b hb => ?_, fun k hk => ?_⟩
  · exact Memory.read_writeBytes_outside _ _ _ _ (by simpa using hb)
  · rw [Memory.read_writeBytes_at _ _ _ _ (by simpa using hk), getElem_bytesOfNat]

/-- An access that leaves memory faults, whichever it is (20_memory.md R62). -/
theorem access_outOfBounds (s : State) (a : Word) (n v : Nat) (kind : AccessKind) (p : Word)
    (h : s.cfg.memSize < a.toNat + n) :
    memRead s a n kind p = .error (.outOfBounds a n kind p) ∧
    memReadBytes s a n kind p = .error (.outOfBounds a n kind p) ∧
    memWrite s a n v p = .error (.outOfBounds a n .store p) := by
  have hout : ¬ a.toNat + n ≤ s.cfg.memSize := by omega
  exact ⟨by rw [memRead_spec, if_neg hout], by rw [memReadBytes_spec, if_neg hout],
    by rw [memWrite_spec, if_neg hout]⟩

/-- Settles O19: in bounds by the place values of each byte order, out of bounds by the fault. -/
theorem accessesAreBoundedAndOrdered : Obligations.AccessesAreBoundedAndOrdered := by
  intro s a n v kind p
  refine ⟨fun hin => ?_, access_outOfBounds s a n v kind p⟩
  have hread := memRead_inBounds s a n kind p hin
  have hwrite := memWrite_inBounds s a n v p hin
  cases hord : s.cfg.byteOrder with
  | little =>
    rw [hord] at hread hwrite
    exact ⟨hread, hwrite⟩
  | big =>
    rw [hord] at hread hwrite
    exact ⟨hread, hwrite⟩

/-- Settles O21: the bulk read is `Memory.readBytes` of the range, whose k-th byte is the one at offset k. -/
theorem bulkReadGivesTheBytesInOrder : Obligations.BulkReadGivesTheBytesInOrder := by
  intro s a n p
  constructor
  · intro hin
    refine ⟨s.mem.readBytes a.toNat n.toNat, by rw [memReadBytes_spec, if_pos hin], by simp, fun k hk => ?_⟩
    rw [List.getElem?_eq_getElem (by simpa using hk), Memory.getElem_readBytes]
  · intro hout
    obtain ⟨_, hbulk, _⟩ := access_outOfBounds s a n.toNat 0 .syscall p hout
    exact hbulk

end Sys2Proof.Machine
end

section
/-! PROOFS. Encoding (30_encoding.md R111, R113 to R115). A word is packed field by field from bit 0 up, so two facts
about one more field on top of the bits below it carry the format laws: its value adds (`toNat_or_placeField`), and a
field read from a word and put back extends the low bits of that word (`lowBits_or_placeField`). -/

namespace Sys2Proof

/-! ### Packing fields -/

/-- A field placed above the bits in use adds its value at its position. -/
theorem toNat_or_placeField {n : Nat} (x : Word) (v : BitVec n) (p : Nat) (hx : x.toNat < 2 ^ p)
    (hp : p + n ≤ 32) : (x ||| placeField v p).toNat = x.toNat + v.toNat * 2 ^ p := by
  rw [BitVec.toNat_or, toNat_placeField v p hp, Nat.lor_comm, Nat.mul_comm, ← Nat.two_pow_add_eq_or_of_lt hx,
    Nat.add_comm]

/-- Two fields above the opcode, as the U format has them. -/
theorem toNat_pack_two {n : Nat} (op : Opcode) (a : RegIdx) (b : BitVec n) (hn : n ≤ 20) :
    (placeField op 0 ||| placeField a 7 ||| placeField b 12).toNat =
      op.toNat + a.toNat * 2 ^ 7 + b.toNat * 2 ^ 12 := by
  have hop : (placeField op 0).toNat = op.toNat := by simpa using toNat_placeField op 0 (by omega)
  have hlow := toNat_or_placeField (placeField op 0) a 7 (by omega) (by omega)
  rw [toNat_or_placeField _ b 12 (by omega) (by omega), hlow, hop]

/-- Three fields above the opcode, as the R, I and S formats have them. -/
theorem toNat_pack_three {n : Nat} (op : Opcode) (a b : RegIdx) (c : BitVec n) (hn : n ≤ 15) :
    (placeField op 0 ||| placeField a 7 ||| placeField b 12 ||| placeField c 17).toNat =
      op.toNat + a.toNat * 2 ^ 7 + b.toNat * 2 ^ 12 + c.toNat * 2 ^ 17 := by
  have hlow := toNat_pack_two op a b (by omega)
  rw [toNat_or_placeField _ c 17 (by omega) (by omega), hlow]

/-- Masking an integer to a field's width takes its residue. -/
theorem natCast_toNat_ofInt (n : Nat) (i : Int) : ((BitVec.ofInt n i).toNat : Int) = i % 2 ^ n := by
  rw [BitVec.toNat_ofInt]
  exact_mod_cast Int.toNat_of_nonneg (Int.emod_nonneg i (by positivity))

/-! ### Decoding a packed word -/

/-- The record of a packed word: the masked fields, 0 in the fields the format does not define (R108). -/
def maskedRecord (it : IType) (op rd rs1 rs2 imm : Int) : Decoded :=
  match it with
  | .R => ⟨.R, BitVec.ofInt 7 op, BitVec.ofInt 5 rd, BitVec.ofInt 5 rs1, BitVec.ofInt 5 rs2, 0⟩
  | .I => ⟨.I, BitVec.ofInt 7 op, BitVec.ofInt 5 rd, BitVec.ofInt 5 rs1, 0, (BitVec.ofInt 15 imm).setWidth 20⟩
  | .S => ⟨.S, BitVec.ofInt 7 op, 0, BitVec.ofInt 5 rs1, BitVec.ofInt 5 rs2, (BitVec.ofInt 15 imm).setWidth 20⟩
  | .U => ⟨.U, BitVec.ofInt 7 op, BitVec.ofInt 5 rd, 0, 0, BitVec.ofInt 20 imm⟩
  | .E => ⟨.E, BitVec.ofInt 7 op, 0, 0, 0, 0⟩

theorem decodeAs_encodeFields (it : IType) (op rd rs1 rs2 imm : Int) :
    decodeAs it (encodeFields it op rd rs1 rs2 imm) = maskedRecord it op rd rs1 rs2 imm := by
  have hop := opcodeField_encodeFields it op rd rs1 rs2 imm
  cases it <;>
    simp only [decodeAs, maskedRecord, hop] <;>
    simp [encodeFields, BitVec.extractLsb'_or, extract_placeField_hit, extract_placeField_miss]

theorem decodeRecord_of_instr {t : OpcodeTable} {w : Word} {m : Mnemonic}
    (h : slotOf t (opcodeField w) = .instr m) : decodeRecord t w = .ok (decodeAs m.itype w) := by
  simp [decodeRecord, h]

/-! ### The low bits of a word -/

/-- The low `n` bits of a word in place, the bits above them 0. -/
def lowBits (n : Nat) (w : Word) : Word := w &&& BitVec.ofNat 32 (2 ^ n - 1)

theorem getLsbD_lowBits (n : Nat) (w : Word) (i : Nat) :
    (lowBits n w).getLsbD i = (w.getLsbD i && decide (i < n)) := by
  rw [lowBits, BitVec.getLsbD_and, BitVec.getLsbD_ofNat, Nat.testBit_two_pow_sub_one]
  by_cases hi : i < 32
  · simp [hi]
  · simp [BitVec.getLsbD_of_ge w i (Nat.le_of_not_lt hi)]

@[simp] theorem lowBits_all (w : Word) : lowBits 32 w = w := by
  ext i hi
  simp [← BitVec.getLsbD_eq_getElem, getLsbD_lowBits, hi]

/-- A field that lies inside the low bits is read as from the whole word. -/
theorem extract_lowBits (w : Word) (n p k : Nat) (h : p + k ≤ n) :
    (lowBits n w).extractLsb' p k = w.extractLsb' p k := by
  ext i hi
  have hin : p + i < n := by omega
  simp [getLsbD_lowBits, hin]

/-- The opcode field put back in its place. -/
theorem placeField_opcodeField (w : Word) : placeField (opcodeField w) 0 = lowBits 7 w := by
  ext i hi
  simp only [← BitVec.getLsbD_eq_getElem, getLsbD_placeField, getLsbD_lowBits, opcodeField]
  simp [hi, Bool.and_comm]

/-- A field read from a word and put back on the bits below it extends them. -/
theorem lowBits_or_placeField (w : Word) (p n : Nat) :
    lowBits p w ||| placeField (w.extractLsb' p n) p = lowBits (p + n) w := by
  ext i hi
  simp only [← BitVec.getLsbD_eq_getElem, BitVec.getLsbD_or, getLsbD_placeField, getLsbD_lowBits,
    BitVec.getLsbD_extractLsb']
  by_cases hp : p ≤ i
  · have hlt : i - p < n ↔ i < p + n := by omega
    simp [hi, hp, hlt, Nat.not_lt.mpr hp, Bool.and_comm]
  · have hin : i < p + n := by omega
    simp [hp, hin, Nat.lt_of_not_le hp]

/-- The number of low bits a format uses: its fields fill them without a gap (R103 to R107). -/
def IType.usedBits : IType → Nat
  | .R => 22
  | .I | .S | .U => 32
  | .E => 7

/-- A decode and encode clears the bits the format does not use and keeps the others (R111). -/
theorem encodeRecord_decodeAs (it : IType) (w : Word) :
    encodeRecord (decodeAs it w) = lowBits it.usedBits w := by
  have himm := Laws.FieldsRoundTrip.imm15_kept (w.extractLsb' 17 15)
  cases it <;>
    simp only [encodeRecord, encodeFields, decodeAs, BitVec.ofInt_natCast, BitVec.ofNat_toNat, BitVec.setWidth_eq,
      himm, placeField_opcodeField, lowBits_or_placeField, Nat.reduceAdd, IType.usedBits]

/-- A format's record does not depend on the bits the format does not use (R115). -/
theorem decodeAs_lowBits (it : IType) (w : Word) : decodeAs it (lowBits it.usedBits w) = decodeAs it w := by
  cases it <;> simp [decodeAs, IType.usedBits, opcodeField, extract_lowBits]

/-! ### Words of a valid opcode -/

/-- Words that read alike in the format of their opcode's instruction decode alike. -/
theorem decode_congr {t : OpcodeTable} {v w : Word} {m : Mnemonic} (hslot : slotOf t (opcodeField w) = .instr m)
    (hrec : decodeAs m.itype v = decodeAs m.itype w) : decode t v = decode t w := by
  have hop : opcodeField v = opcodeField w := by
    simpa only [opcode_decodeAs] using congrArg Decoded.opcode hrec
  rw [decode_of_instr hslot, decode_of_instr (by rwa [hop]), hrec]

/-- Unused bits do not matter to the decoder (R115). -/
theorem decode_lowBits {t : OpcodeTable} {w : Word} {m : Mnemonic} (h : slotOf t (opcodeField w) = .instr m) :
    decode t (lowBits m.itype.usedBits w) = decode t w :=
  decode_congr h (decodeAs_lowBits m.itype w)

/-- Settles O28: the two masks are the used bits of the R and the E format. -/
theorem unusedBitsAreIgnored : Obligations.UnusedBitsAreIgnored := by
  intro t w m h
  have hused := decode_lowBits h
  refine ⟨fun hR => ?_, fun hE => ?_, _, decode_of_instr h, mnemonic_instrOf m _⟩
  · rw [hR] at hused
    exact hused.symm
  · rw [hE] at hused
    exact hused.symm

/-- Settles O26: the packing of each format, then the record of a packed word, then the word of a record. -/
theorem encodingTruncatesAndDecodesBack : Obligations.EncodingTruncatesAndDecodesBack := by
  intro op rd rs1 rs2 imm
  refine ⟨?packR, ?packI, ?packS, ?packU, ?packE, ?record, fun w =>
    ⟨encodeRecord_decodeAs .R w, ?keepI, ?keepS, ?keepU, encodeRecord_decodeAs .E w⟩⟩
  case packR | packI | packS =>
    rw [encodeFields, toNat_pack_three _ _ _ _ (by omega)]
    push_cast [natCast_toNat_ofInt]
    rfl
  case packU =>
    rw [encodeFields, toNat_pack_two _ _ _ (by omega)]
    push_cast [natCast_toNat_ofInt]
    rfl
  case packE =>
    rw [encodeFields, toNat_placeField _ 0 (by omega)]
    push_cast [natCast_toNat_ofInt]
    simp
  case record =>
    intro t m h
    rw [← opcodeField_encodeFields m.itype op rd rs1 rs2 imm] at h
    rw [decodeRecord_of_instr h, decodeAs_encodeFields]
    rfl
  case keepI | keepS | keepU => exact (encodeRecord_decodeAs _ w).trans (lowBits_all w)

/-! ### The default table -/

theorem defaultOpcodes_wf : OpcodeTable.wf defaultOpcodes := by decide

/-- The default table gives every opcode it lists an instruction (R114). -/
theorem instr_of_mem_defaultOpcodes : ∀ e ∈ defaultOpcodes, ∃ m, e.2 = .instr m := by
  simp [defaultOpcodes]

/-- The default table lists the opcodes 0x01 to 0x23 and no other (R112). -/
theorem listed_defaultOpcodes_iff :
    ∀ op : Opcode, (∃ e ∈ defaultOpcodes, e.1 = op) ↔ 1 ≤ op.toNat ∧ op.toNat ≤ 0x23 := by decide

/-- Settles O27: an opcode outside the table is absent, and a listed one has an instruction. -/
theorem reservedOpcodesAreExactlyTheInvalidOnes : Obligations.ReservedOpcodesAreExactlyTheInvalidOnes := by
  intro w
  have hlisted := listed_defaultOpcodes_iff (opcodeField w)
  constructor
  · intro hreserved
    have hrange : ¬ (1 ≤ (opcodeField w).toNat ∧ (opcodeField w).toNat ≤ 0x23) := by
      rcases hreserved with h | h
      · simp [h]
      · omega
    exact decode_of_noItype (slotOf_of_absent fun e he heq => hrange (hlisted.mp ⟨e, he, heq⟩))
  · intro hrange
    obtain ⟨⟨k, slot⟩, hmem, rfl⟩ := hlisted.mpr hrange
    obtain ⟨m, rfl⟩ := instr_of_mem_defaultOpcodes _ hmem
    exact ⟨_, decode_of_instr (slotOf_of_mem defaultOpcodes_wf hmem)⟩

/-! ### Opcodes with no rule -/

/-- UnhandledOpcode arises only from an entry with an itype and no rule (R114). -/
theorem noRule_mem_of_decode_unhandled {t : OpcodeTable} {w : Word} {op : Opcode}
    (h : decode t w = .error (.unhandledOpcode op)) : ∃ it, (opcodeField w, OpcodeSlot.noRule it) ∈ t := by
  cases hslot : slotOf t (opcodeField w) with
  | noItype => simp [decode_of_noItype hslot] at h
  | noRule it => exact ⟨it, mem_of_slotOf hslot (by simp)⟩
  | instr m => simp [decode_of_instr hslot] at h

namespace Machine

/-- A fetched word that does not decode faults with pc advanced and nothing else changed (40_cycle.md R162, R163). -/
theorem step_of_decode_error {s : State} {e : DecodeError} (hrun : s.run = .running)
    (hfetch : s.pc.toNat + 4 ≤ s.cfg.memSize) (hdec : decode s.cfg.opcodes (wordAtPc s) = .error e) :
    ∃ t, step s = .next t ∧ FaultTaken (faultOfDecode e (advanced s)) (advanced s) t := by
  rw [step_running s hrun, if_pos hfetch, hdec]
  exact raise_spec _ _

/-- Settles O8: the default table has no entry without a rule, and such an entry faults the step that decodes it. -/
theorem opcodeWithoutRuleFaultsUnhandled : Obligations.OpcodeWithoutRuleFaultsUnhandled := by
  constructor
  · intro w op h
    obtain ⟨it, hmem⟩ := noRule_mem_of_decode_unhandled h
    obtain ⟨m, hm⟩ := instr_of_mem_defaultOpcodes _ hmem
    cases hm
  · intro s it hrun hfetch hwf hmem
    have hdec := decode_of_noRule (slotOf_of_mem hwf hmem)
    obtain ⟨t, hstep, hfault⟩ := step_of_decode_error hrun hfetch hdec
    rw [faultOfDecode, fetchPcOf_advanced] at hfault
    exact ⟨t, hstep, hfault⟩

end Machine
end Sys2Proof
end

section
/-! PROOFS. The cycle: fetch (40_cycle.md R161), invalid opcodes (R162), halted cores (R167), the pc after a step (R164)
and precise faults (R166). `exec_endsAt` says once how an instruction leaves pc and what a fault of its own keeps; the
statements on both are read off it. -/

namespace Sys2Proof.Machine

/-! ### Fetch -/

/-- A byte string's value fits the bytes it has. -/
theorem natOfBytesLE_lt (bs : List Byte) : natOfBytesLE bs < 256 ^ bs.length := by
  induction bs with
  | nil => simp [natOfBytesLE]
  | cons b bs ih =>
    have hb := b.isLt
    rw [natOfBytesLE, List.length_cons, pow_succ]
    omega

theorem natOfBytes_lt (o : ByteOrder) (bs : List Byte) : natOfBytes o bs < 256 ^ bs.length := by
  cases o with
  | little => exact natOfBytesLE_lt bs
  | big => simpa [natOfBytes] using natOfBytesLE_lt bs.reverse

/-- The word at pc loses no bit of its four bytes (40_cycle.md R161, 20_memory.md R63). -/
theorem toNat_wordAtPc (s : State) :
    (wordAtPc s).toNat = ∑ k ∈ Finset.range 4,
      (s.mem.read (s.pc.toNat + k)).toNat * 2 ^ (8 * byteRank s.cfg.byteOrder 4 k) := by
  have hlt : natOfBytes s.cfg.byteOrder (s.mem.readBytes s.pc.toNat 4) < 2 ^ 32 := by
    simpa using natOfBytes_lt s.cfg.byteOrder (s.mem.readBytes s.pc.toNat 4)
  rw [wordAtPc, BitVec.toNat_ofNat, Nat.mod_eq_of_lt hlt, natOfBytes_readBytes]

/-- A fetch out of bounds faults with pc unchanged (40_cycle.md R161). -/
theorem step_of_fetch_outOfBounds {s : State} (hrun : s.run = .running) (hout : s.cfg.memSize < s.pc.toNat + 4) :
    ∃ t, step s = .next t ∧ FaultTaken (.outOfBounds s.pc 4 .fetch s.pc) s t := by
  rw [step_running s hrun, if_neg (Nat.not_le.mpr hout)]
  exact raise_spec _ s

/-- Settles O6: in bounds by the value of the word at pc in each byte order, out of bounds by the fault. -/
theorem fetchReadsOneWordAndAdvancesPc : Obligations.FetchReadsOneWordAndAdvancesPc := by
  intro s
  constructor
  · intro hin
    refine ⟨wordAtPc s, by rw [fetch_spec, if_pos hin, advanced], ?_⟩
    have hvalue := toNat_wordAtPc s
    cases hord : s.cfg.byteOrder with
    | little | big =>
      rw [hord] at hvalue
      exact hvalue
  · intro hout
    have hfetch : fetch s = .error (.outOfBounds s.pc 4 .fetch s.pc) := by
      rw [fetch_spec, if_neg (Nat.not_le.mpr hout)]
    exact ⟨hfetch, fun hrun => step_of_fetch_outOfBounds hrun hout⟩

/-! ### Opcodes with no itype -/

/-- Settles O7: an absent opcode and an entry with no itype have the same slot, which does not decode. -/
theorem opcodeWithoutItypeFaultsInvalid : Obligations.OpcodeWithoutItypeFaultsInvalid := by
  intro s hrun hfetch hwf hop
  have hslot : slotOf s.cfg.opcodes (opcodeField (wordAtPc s)) = .noItype := by
    rcases hop with habsent | hmem
    · exact slotOf_of_absent habsent
    · exact slotOf_of_mem hwf hmem
  obtain ⟨t, hstep, hfault⟩ := step_of_decode_error hrun hfetch (decode_of_noItype hslot)
  rw [faultOfDecode, fetchPcOf_advanced] at hfault
  exact ⟨t, hstep, hfault⟩

/-! ### Halted cores -/

/-- Any number of steps of a halted core: from the first one on, the outcome it holds stands in the state. -/
theorem run_halted (k : Nat) (s : State) (o : HaltOutcome) (h : s.run = .halted o) :
    Host.Core.run Sys2Proof.core k s = .next (if k = 0 then s else s.setOutcome (some o.toStep)) := by
  induction k generalizing s with
  | zero => rfl
  | succ k ih =>
    rw [run_succ k s _ (step_halted s o h), ih (s.setOutcome (some o.toStep)) h]
    cases k <;> rfl

/-- A load keeps the halt state (70_reset_and_hazards.md R345). -/
theorem run_of_loadImage {img : List Byte} {s t : State} (h : loadImage img s = some t) : t.run = s.run := by
  unfold loadImage at h
  split at h
  · cases h
    rfl
  · cases h

/-- Settles O9: by induction on the number of steps, and by what the two host operations write. -/
theorem haltedCoreRepeatsItsOutcome : Obligations.HaltedCoreRepeatsItsOutcome := by
  intro s o h
  refine ⟨fun k => ⟨_, run_halted k s o h, ?_⟩, fun img t hload => (run_of_loadImage hload).trans h, rfl⟩
  cases o <;> rfl

/-! ### The branch conditions -/

theorem eqWords_iff (a b : Word) : eqWords a b = true ↔ a = b := decide_eq_true_iff
theorem neWords_iff (a b : Word) : neWords a b = true ↔ a ≠ b := decide_eq_true_iff
theorem ltSigned_iff (a b : Word) : ltSigned a b = true ↔ a.toInt < b.toInt := decide_eq_true_iff
theorem geSigned_iff (a b : Word) : geSigned a b = true ↔ a.toInt ≥ b.toInt := decide_eq_true_iff

/-! ### How an instruction leaves pc -/

/-- The pc after an instruction that raises no fault, from the state it sees (40_cycle.md R164). -/
def nextPc (i : Instr) (s : State) : Word :=
  match i with
  | .beq rs1 rs2 imm => if eqWords (readReg s rs1) (readReg s rs2) then immI imm else s.pc
  | .bne rs1 rs2 imm => if neWords (readReg s rs1) (readReg s rs2) then immI imm else s.pc
  | .blt rs1 rs2 imm => if ltSigned (readReg s rs1) (readReg s rs2) then immI imm else s.pc
  | .bge rs1 rs2 imm => if geSigned (readReg s rs1) (readReg s rs2) then immI imm else s.pc
  | .jalr _ rs1 imm => effAddr s rs1 imm
  | .jal _ imm => immU imm
  | _ => s.pc

/-- `t` ends an instruction that saw `s`: with pc at `p` and no fault, or with a fault that records fetch_pc and
changes nothing else (40_cycle.md R164, R166). -/
inductive PcOrFault (p : Word) (s t : State) : Prop where
  | pc (hpc : t.pc = p) (hout : ∀ f, t.outcome ≠ some (.faulted f))
  | fault (f : Fault) (hat : f.fetchPc = fetchPcOf s) (htaken : FaultTaken f s t)

/-- The result is a next state that ends so an instruction that saw `s`. -/
def EndsAt (p : Word) (s : State) (r : Result) : Prop := ∃ t, r = .next t ∧ PcOrFault p s t

/-- A fault taken names the reason in the outcome. -/
theorem FaultTaken.reason_eq {f g : Fault} {s t : State} (h : FaultTaken g s t)
    (hout : t.outcome = some (.faulted f)) : g = f := by
  obtain ⟨_, hg, _⟩ := h
  simpa [hg] using hout

theorem PcOrFault.faultTaken {p : Word} {f : Fault} {s t : State} (h : PcOrFault p s t)
    (hout : t.outcome = some (.faulted f)) : f.fetchPc = fetchPcOf s ∧ FaultTaken f s t := by
  cases h with
  | pc _ hno => exact absurd hout (hno f)
  | fault g hat htaken =>
    obtain rfl := htaken.reason_eq hout
    exact ⟨hat, htaken⟩

theorem PcOrFault.pc_eq {p : Word} {s t : State} (h : PcOrFault p s t)
    (hno : ∀ f, t.outcome ≠ some (.faulted f)) : t.pc = p := by
  cases h with
  | pc hpc _ => exact hpc
  | fault f _ htaken =>
    obtain ⟨_, hout, _⟩ := htaken
    exact absurd hout (hno f)

/-! ### The ways an instruction ends -/

/-- A state whose outcome is Continued ends at its pc. -/
theorem PcOrFault.of_continued {p : Word} {s t : State} (hpc : t.pc = p) (hout : t.outcome = some .continued) :
    PcOrFault p s t := .pc hpc (by simp [hout])

theorem OnlyWrites.pcOrFault {rd : RegIdx} {v : Word} {s t : State} (h : OnlyWrites rd v s t) :
    PcOrFault s.pc s t := by
  obtain ⟨_, _, hpc, _, _, _, hout⟩ := h
  exact .of_continued hpc hout

theorem raise_endsAt (p : Word) {f : Fault} {s : State} (hat : f.fetchPc = fetchPcOf s) :
    EndsAt p s (raise f s) := by
  obtain ⟨t, ht, htaken⟩ := raise_spec f s
  exact ⟨t, ht, .fault f hat htaken⟩

/-! ### The shapes of the instructions -/

theorem aluReg_endsAt (f : Word → Word → Word) (rd rs1 rs2 : RegIdx) (s : State) :
    EndsAt s.pc s (aluReg f rd rs1 rs2 s) := by
  obtain ⟨t, ht, h⟩ := aluReg_spec f rd rs1 rs2 s
  exact ⟨t, ht, h.pcOrFault⟩

theorem aluImm_endsAt (f : Word → Word → Word) (rd rs1 : RegIdx) (imm : BitVec 15) (s : State) :
    EndsAt s.pc s (aluImm f rd rs1 imm s) := by
  obtain ⟨t, ht, h⟩ := aluImm_spec f rd rs1 imm s
  exact ⟨t, ht, h.pcOrFault⟩

theorem aluDivision_endsAt (f : DivZero → Word → Word → Option Word) (rd rs1 rs2 : RegIdx) (s : State) :
    EndsAt s.pc s (aluDivision f rd rs1 rs2 s) := by
  obtain ⟨t, ht, h⟩ := aluDivision_spec f rd rs1 rs2 s
  refine ⟨t, ht, ?_⟩
  split at h
  · exact h.pcOrFault
  · exact .fault _ rfl h

theorem loadAt_endsAt (n : Nat) (ext : Nat → Word) (rd rs1 : RegIdx) (imm : BitVec 15) (s : State) :
    EndsAt s.pc s (loadAt n ext rd rs1 imm s) := by
  obtain ⟨t, ht, h⟩ := loadAt_spec n ext rd rs1 imm s
  refine ⟨t, ht, ?_⟩
  split at h
  · exact h.pcOrFault
  · exact .fault _ rfl h

theorem storeAt_endsAt (n : Nat) (rs1 rs2 : RegIdx) (imm : BitVec 15) (s : State) :
    EndsAt s.pc s (storeAt n rs1 rs2 imm s) := by
  obtain ⟨t, ht, h⟩ := storeAt_spec n rs1 rs2 imm s
  refine ⟨t, ht, ?_⟩
  split at h
  · subst h
    exact .of_continued rfl rfl
  · exact .fault _ rfl h

theorem branchIf_endsAt (c : Word → Word → Bool) (rs1 rs2 : RegIdx) (imm : BitVec 15) (s : State) :
    EndsAt (if c (readReg s rs1) (readReg s rs2) then immI imm else s.pc) s (branchIf c rs1 rs2 imm s) :=
  ⟨_, branchIf_spec c rs1 rs2 imm s, .of_continued rfl rfl⟩

theorem jumpLink_endsAt (rd : RegIdx) (target : Word) (s : State) : EndsAt target s (jumpLink rd target s) := by
  obtain ⟨t, ht, _, hpc, _, _, _, _, hout⟩ := jumpLink_spec rd target s
  exact ⟨t, ht, .of_continued hpc hout⟩

theorem syscallWrite_endsAt (s : State) : EndsAt s.pc s (syscallWrite s) := by
  obtain ⟨t, ht, h⟩ := syscallWrite_spec s
  refine ⟨t, ht, ?_⟩
  split at h
  · exact .fault _ rfl h
  · split at h
    · subst h
      exact .of_continued rfl rfl
    · exact .fault _ rfl h

theorem execEcall_endsAt (s : State) : EndsAt s.pc s (execEcall s) := by
  unfold execEcall
  split
  · exact syscallWrite_endsAt s
  · split
    · exact ⟨_, exitWith_eq (readReg s regA0) s, .pc rfl (by simp)⟩
    · exact raise_endsAt _ rfl

theorem execEbreak_endsAt (s : State) : EndsAt s.pc s (execEbreak s) :=
  ⟨_, breakpoint_eq s, .pc rfl (by simp)⟩

/-- Every instruction goes to its next pc, or faults with the state it saw (40_cycle.md R164, R166). -/
theorem exec_endsAt (i : Instr) (s : State) : EndsAt (nextPc i s) s (exec i s) := by
  cases i with
  | add rd rs1 rs2 | sub rd rs1 rs2 | mul rd rs1 rs2 | and rd rs1 rs2 | or rd rs1 rs2 | xor rd rs1 rs2
  | sll rd rs1 rs2 | srl rd rs1 rs2 | sra rd rs1 rs2 | slt rd rs1 rs2 => exact aluReg_endsAt _ rd rs1 rs2 s
  | div rd rs1 rs2 | rem rd rs1 rs2 => exact aluDivision_endsAt _ rd rs1 rs2 s
  | addi rd rs1 imm | subi rd rs1 imm | andi rd rs1 imm | ori rd rs1 imm | xori rd rs1 imm
  | slli rd rs1 imm | srli rd rs1 imm | srai rd rs1 imm | slti rd rs1 imm => exact aluImm_endsAt _ rd rs1 imm s
  | lb rd rs1 imm | lh rd rs1 imm | lw rd rs1 imm => exact loadAt_endsAt _ _ rd rs1 imm s
  | sb rs1 rs2 imm | sh rs1 rs2 imm | sw rs1 rs2 imm => exact storeAt_endsAt _ rs1 rs2 imm s
  | beq rs1 rs2 imm | bne rs1 rs2 imm | blt rs1 rs2 imm | bge rs1 rs2 imm =>
    exact branchIf_endsAt _ rs1 rs2 imm s
  | jalr rd rs1 imm => exact jumpLink_endsAt rd (effAddr s rs1 imm) s
  | jal rd imm => exact jumpLink_endsAt rd (immU imm) s
  | ecall => exact execEcall_endsAt s
  | ebreak => exact execEbreak_endsAt s

/-! ### The step of a fetched word -/

/-- A running core executes the instruction it fetches with pc advanced (40_cycle.md R160). -/
theorem step_of_fetches {s : State} {i : Instr} (h : Fetches s i) : step s = exec i (advanced s) := by
  obtain ⟨hrun, hfetch, hdec⟩ := h
  rw [step_running s hrun, if_pos hfetch, hdec]

theorem step_endsAt_of_fetches {s t : State} {i : Instr} (h : Fetches s i) (hstep : step s = .next t) :
    PcOrFault (nextPc i (advanced s)) (advanced s) t := by
  obtain ⟨u, hu, hend⟩ := exec_endsAt i (advanced s)
  rw [step_of_fetches h, hu] at hstep
  cases hstep
  exact hend

/-- Settles O13: the step ends without a fault, so at the next pc of its instruction. -/
theorem pcAfterAStep : Obligations.PcAfterAStep := by
  intro s t i hfetches hstep hout
  have hno : ∀ f, t.outcome ≠ some (.faulted f) := by
    rcases hout with h | h <;> simp [h]
  rw [(step_endsAt_of_fetches hfetches hstep).pc_eq hno]
  cases i with
  | beq => exact if_congr (eqWords_iff _ _) rfl rfl
  | bne => exact if_congr (neWords_iff _ _) rfl rfl
  | blt => exact if_congr (ltSigned_iff _ _) rfl rfl
  | bge => exact if_congr (geSigned_iff _ _) rfl rfl
  | _ => rfl

/-- The fault of a word that does not decode records the pc of its fetch (60_exceptions.md R301). -/
theorem fetchPc_faultOfDecode (e : DecodeError) (s : State) : (faultOfDecode e s).fetchPc = fetchPcOf s := by
  cases e <;> rfl

/-- Past a legal fetch, a faulting step takes its fault from the state with pc advanced. -/
theorem faultTaken_of_legal_fetch {s t : State} {f : Fault} (hrun : s.run = .running) (hfetch : legal s s.pc 4)
    (hstep : step s = .next t) (hout : t.outcome = some (.faulted f)) :
    f.fetchPc = s.pc ∧ FaultTaken f (advanced s) t := by
  have hend : ∃ p, PcOrFault p (advanced s) t := by
    cases hdec : decode s.cfg.opcodes (wordAtPc s) with
    | error e =>
      obtain ⟨u, hu, htaken⟩ := step_of_decode_error hrun hfetch hdec
      cases hu.symm.trans hstep
      exact ⟨s.pc, .fault _ (fetchPc_faultOfDecode e _) htaken⟩
    | ok i => exact ⟨_, step_endsAt_of_fetches ⟨hrun, hfetch, hdec⟩ hstep⟩
  obtain ⟨p, hp⟩ := hend
  rw [← fetchPcOf_advanced s]
  exact hp.faultTaken hout

/-- Settles O11: past a legal fetch the fault starts from the advanced pc, and a failed fetch leaves pc. -/
theorem faultsArePrecise : Obligations.FaultsArePrecise := by
  intro s t f hrun hstep hout
  split
  next hin => exact faultTaken_of_legal_fetch hrun hin hstep hout
  next hnot =>
    obtain ⟨u, hu, htaken⟩ := step_of_fetch_outOfBounds hrun (Nat.not_le.mp hnot)
    cases hu.symm.trans hstep
    obtain rfl := htaken.reason_eq hout
    exact ⟨rfl, htaken⟩

end Sys2Proof.Machine
end

section
/-! PROOFS. The ALU instructions (41_alu.md R201 to R221). Three layers: `EncodedR` and `EncodedI` from the default
table; what each ALU function computes, in the spec's words; and the instruction shapes with such a value put in. The
statements are assembled from the three. -/

namespace Sys2Proof.Machine

/-! ### Encodings under the default table -/

/-- A word whose opcode the default table lists decodes to that entry's instruction. -/
theorem decode_default_of_mem {op : Opcode} {m : Mnemonic} {w : Word} (hmem : (op, .instr m) ∈ defaultOpcodes)
    (hop : opcodeField w = op) : decode defaultOpcodes w = .ok (instrOf m (decodeAs m.itype w)) :=
  decode_of_instr (slotOf_of_mem defaultOpcodes_wf (hop ▸ hmem))

theorem encodedR_of_mem {op : Opcode} {m : Mnemonic} {f : RegIdx → RegIdx → RegIdx → Instr}
    (hmem : (op, .instr m) ∈ defaultOpcodes) (hR : m.itype = .R)
    (hf : ∀ d, instrOf m d = f d.rd d.rs1 d.rs2) : EncodedR op f := by
  intro w hop
  rw [decode_default_of_mem hmem hop, hR, hf]
  rfl

theorem encodedI_of_mem {op : Opcode} {m : Mnemonic} {f : RegIdx → RegIdx → BitVec 15 → Instr}
    (hmem : (op, .instr m) ∈ defaultOpcodes) (hI : m.itype = .I)
    (hf : ∀ d, instrOf m d = f d.rd d.rs1 (d.imm.setWidth 15)) : EncodedI op f := by
  intro w hop
  rw [decode_default_of_mem hmem hop, hI, hf]
  simp only [decodeAs, Laws.FieldsRoundTrip.imm15_kept]

/-! ### The shapes with a known value -/

theorem aluReg_writes {f : Word → Word → Word} {rs1 rs2 : RegIdx} {s : State} {v : Word} (rd : RegIdx)
    (hv : f (readReg s rs1) (readReg s rs2) = v) :
    ∃ t, aluReg f rd rs1 rs2 s = .next t ∧ OnlyWrites rd v s t :=
  hv ▸ aluReg_spec f rd rs1 rs2 s

theorem aluImm_writes {f : Word → Word → Word} {rs1 : RegIdx} {imm : BitVec 15} {s : State} {v : Word} (rd : RegIdx)
    (hv : f (readReg s rs1) (immI imm) = v) :
    ∃ t, aluImm f rd rs1 imm s = .next t ∧ OnlyWrites rd v s t :=
  hv ▸ aluImm_spec f rd rs1 imm s

theorem aluDivision_writes {f : DivZero → Word → Word → Option Word} {rs1 rs2 : RegIdx} {s : State} {v : Word}
    (rd : RegIdx) (hv : f s.cfg.divZero (readReg s rs1) (readReg s rs2) = some v) :
    ∃ t, aluDivision f rd rs1 rs2 s = .next t ∧ OnlyWrites rd v s t := by
  simpa only [hv] using aluDivision_spec f rd rs1 rs2 s

theorem aluDivision_faults {f : DivZero → Word → Word → Option Word} {rs1 rs2 : RegIdx} {s : State}
    (rd : RegIdx) (hnone : f s.cfg.divZero (readReg s rs1) (readReg s rs2) = none) :
    ∃ t, aluDivision f rd rs1 rs2 s = .next t ∧ FaultTaken (.divideByZero (s.pc - 4)) s t := by
  simpa only [hnone, fetchPcOf] using aluDivision_spec f rd rs1 rs2 s

/-- A value with two readings, as R201 to R203 give it. -/
theorem aluReg_writes_both {f : Word → Word → Word} {rs1 rs2 : RegIdx} {s : State} {u v : Word} (rd : RegIdx)
    (hu : f (readReg s rs1) (readReg s rs2) = u) (hv : f (readReg s rs1) (readReg s rs2) = v) :
    ∃ t x, aluReg f rd rs1 rs2 s = .next t ∧ OnlyWrites rd x s t ∧ x = u ∧ x = v := by
  obtain ⟨t, ht, h⟩ := aluReg_spec f rd rs1 rs2 s
  exact ⟨t, _, ht, h, hu, hv⟩

/-! ### The immediate operand -/

theorem immI_eq_ofInt (imm : BitVec 15) : immI imm = BitVec.ofInt 32 imm.toInt := rfl

/-- Sign extension keeps the signed value (30_encoding.md R109). -/
@[simp] theorem toInt_immI (imm : BitVec 15) : (immI imm).toInt = imm.toInt :=
  BitVec.toInt_signExtend_of_le (by omega)

/-! ### Sum, difference, product -/

/-- The residue mod 2^32 respects differences. -/
theorem ofInt_sub (x y : Int) : BitVec.ofInt 32 (x - y) = BitVec.ofInt 32 x - BitVec.ofInt 32 y := by
  rw [sub_eq_add_neg, BitVec.ofInt_add, BitVec.ofInt_neg, BitVec.sub_eq_add_neg]

theorem aluAdd_unsigned (a b : Word) : aluAdd a b = BitVec.ofNat 32 (a.toNat + b.toNat) := by
  simp [aluAdd, BitVec.ofNat_add]

theorem aluAdd_signed (a b : Word) : aluAdd a b = BitVec.ofInt 32 (a.toInt + b.toInt) := by
  simp [aluAdd, BitVec.ofInt_add]

theorem aluSub_unsigned (a b : Word) : aluSub a b = BitVec.ofInt 32 (a.toNat - b.toNat) := by
  simp [aluSub, ofInt_sub]

theorem aluSub_signed (a b : Word) : aluSub a b = BitVec.ofInt 32 (a.toInt - b.toInt) := by
  simp [aluSub, ofInt_sub]

theorem aluMul_unsigned (a b : Word) : aluMul a b = BitVec.ofNat 32 (a.toNat * b.toNat) := by
  simp [aluMul, BitVec.ofNat_mul]

theorem aluMul_signed (a b : Word) : aluMul a b = BitVec.ofInt 32 (a.toInt * b.toInt) := by
  simp [aluMul, BitVec.ofInt_mul]

/-- Settles O32: each operation by its unsigned and its signed reading. -/
theorem addSubMulWrap : Obligations.AddSubMulWrap :=
  ⟨encodedR_of_mem (m := .add) (by decide) rfl fun _ => rfl,
    encodedR_of_mem (m := .sub) (by decide) rfl fun _ => rfl,
    encodedR_of_mem (m := .mul) (by decide) rfl fun _ => rfl,
    fun rd _ _ _ => aluReg_writes_both rd (aluAdd_unsigned _ _) (aluAdd_signed _ _),
    fun rd _ _ _ => aluReg_writes_both rd (aluSub_unsigned _ _) (aluSub_signed _ _),
    fun rd _ _ _ => aluReg_writes_both rd (aluMul_unsigned _ _) (aluMul_signed _ _)⟩

/-- Settles O33: the signed readings of sum and difference, the immediate keeping its signed value. -/
theorem addiSubiWrap : Obligations.AddiSubiWrap := by
  refine ⟨encodedI_of_mem (m := .addi) (by decide) rfl fun _ => rfl,
    encodedI_of_mem (m := .subi) (by decide) rfl fun _ => rfl, fun rd rs1 imm s => ?addi, fun rd rs1 imm s => ?subi⟩
  case addi => exact aluImm_writes rd (by rw [aluAdd_signed, toInt_immI])
  case subi => exact aluImm_writes rd (by rw [aluSub_signed, toInt_immI])

/-! ### Bitwise operations -/

/-- Settles O34: the operations are the bitwise ones, on registers and on the sign-extended immediate. -/
theorem bitwiseOperations : Obligations.BitwiseOperations :=
  ⟨encodedR_of_mem (m := .and) (by decide) rfl fun _ => rfl,
    encodedR_of_mem (m := .or) (by decide) rfl fun _ => rfl,
    encodedR_of_mem (m := .xor) (by decide) rfl fun _ => rfl,
    encodedI_of_mem (m := .andi) (by decide) rfl fun _ => rfl,
    encodedI_of_mem (m := .ori) (by decide) rfl fun _ => rfl,
    encodedI_of_mem (m := .xori) (by decide) rfl fun _ => rfl,
    aluReg_spec aluAnd, aluReg_spec aluOr, aluReg_spec aluXor,
    aluImm_spec aluAnd, aluImm_spec aluOr, aluImm_spec aluXor⟩

/-! ### Shifts -/

/-- The shift amount is the operand mod 32 (R209). -/
theorem shiftAmount_eq_mod (v : Word) : shiftAmount v = v.toNat % 32 := by
  simp [shiftAmount]

/-- The shift amount of an immediate is that of its raw field (R218): sign extension adds multiples of 2^15. -/
theorem shiftAmount_immI (imm : BitVec 15) : shiftAmount (immI imm) = imm.toNat % 32 := by
  have hvalue : (immI imm).toNat = (imm.toInt % 2 ^ 32).toNat := by
    rw [immI_eq_ofInt, BitVec.toNat_ofInt, Nat.cast_pow, Nat.cast_ofNat]
  have hsigned := BitVec.toInt_eq_toNat_cond imm
  rw [shiftAmount_eq_mod, hvalue]
  split at hsigned <;> omega

theorem aluSll_eq (a b : Word) : aluSll a b = BitVec.ofNat 32 (a.toNat * 2 ^ shiftAmount b) := by
  apply BitVec.eq_of_toNat_eq
  rw [aluSll, BitVec.toNat_shiftLeft, BitVec.toNat_ofNat, Nat.shiftLeft_eq]

theorem aluSrl_eq (a b : Word) : aluSrl a b = BitVec.ofNat 32 (a.toNat / 2 ^ shiftAmount b) := by
  rw [← Nat.shiftRight_eq_div_pow, ← BitVec.toNat_ushiftRight, BitVec.ofNat_toNat, BitVec.setWidth_eq, aluSrl]

theorem aluSra_eq (a b : Word) : aluSra a b = BitVec.ofInt 32 ⌊(a.toInt : ℚ) / 2 ^ shiftAmount b⌋ := by
  have hfloor : ⌊(a.toInt : ℚ) / 2 ^ shiftAmount b⌋ = a.toInt >>> shiftAmount b := by
    rw [Int.shiftRight_eq_div_pow, ← Rat.floor_intCast_div_natCast]
    push_cast
    rfl
  rw [hfloor, ← BitVec.toInt_sshiftRight, BitVec.ofInt_toInt, aluSra]

/-- Settles O35: the value of each shift, with the shift amount of a register or of an immediate. -/
theorem shiftsByTheLowFiveBits : Obligations.ShiftsByTheLowFiveBits := by
  refine ⟨encodedR_of_mem (m := .sll) (by decide) rfl fun _ => rfl,
    encodedR_of_mem (m := .srl) (by decide) rfl fun _ => rfl,
    encodedR_of_mem (m := .sra) (by decide) rfl fun _ => rfl,
    encodedI_of_mem (m := .slli) (by decide) rfl fun _ => rfl,
    encodedI_of_mem (m := .srli) (by decide) rfl fun _ => rfl,
    encodedI_of_mem (m := .srai) (by decide) rfl fun _ => rfl,
    fun rd rs1 rs2 s => ?sll, fun rd rs1 rs2 s => ?srl, fun rd rs1 rs2 s => ?sra,
    fun rd rs1 imm s => ?slli, fun rd rs1 imm s => ?srli, fun rd rs1 imm s => ?srai⟩
  case sll => exact aluReg_writes rd (by rw [aluSll_eq, shiftAmount_eq_mod])
  case srl => exact aluReg_writes rd (by rw [aluSrl_eq, shiftAmount_eq_mod])
  case sra => exact aluReg_writes rd (by rw [aluSra_eq, shiftAmount_eq_mod])
  case slli => exact aluImm_writes rd (by rw [aluSll_eq, shiftAmount_immI])
  case srli => exact aluImm_writes rd (by rw [aluSrl_eq, shiftAmount_immI])
  case srai => exact aluImm_writes rd (by rw [aluSra_eq, shiftAmount_immI])

/-! ### Signed less-than -/

theorem aluSlt_eq (a b : Word) : aluSlt a b = if a.toInt < b.toInt then 1 else 0 :=
  if_congr (ltSigned_iff a b) rfl rfl

/-- Settles O36: the comparison of the signed values, that of an immediate kept by its sign extension. -/
theorem setIfLessSigned : Obligations.SetIfLessSigned := by
  refine ⟨encodedR_of_mem (m := .slt) (by decide) rfl fun _ => rfl,
    encodedI_of_mem (m := .slti) (by decide) rfl fun _ => rfl, fun rd rs1 rs2 s => ?slt, fun rd rs1 imm s => ?slti⟩
  case slt => exact aluReg_writes rd (aluSlt_eq _ _)
  case slti => exact aluImm_writes rd (by rw [aluSlt_eq, toInt_immI])

/-! ### Division -/

/-- The truncated quotient is the spec's sign and floor of magnitudes (R204). -/
theorem tdiv_eq_sign_mul_floor (a b : Int) : a.tdiv b = (a * b).sign * (a.natAbs / b.natAbs : Nat) := by
  rw [← Int.sign_mul_natAbs (a.tdiv b), Int.sign_tdiv, Int.natAbs_tdiv, Int.sign_mul]
  split
  next hlt => rw [Nat.div_eq_of_lt hlt, zero_mul, Nat.cast_zero, mul_zero]
  next => rfl

theorem aluDiv_fault {a b : Word} (hb : b.toInt = 0) : aluDiv .fault a b = none := by
  rw [aluDiv, if_pos hb]

theorem aluDiv_sentinel {a b : Word} (hb : b.toInt = 0) : aluDiv .sentinel a b = some 0xFFFFFFFF := by
  rw [aluDiv, if_pos hb]

theorem aluDiv_overflow {p : DivZero} {a b : Word} (h : a.toInt = -2 ^ 31 ∧ b.toInt = -1) :
    aluDiv p a b = some 0x80000000 := by
  have hb : b.toInt ≠ 0 := by omega
  unfold aluDiv
  rw [if_neg hb, if_pos h]

/-- DIV of every other pair: the quotient mod 2^32. -/
theorem aluDiv_quotient {p : DivZero} {a b : Word} (hb : b.toInt ≠ 0) (h : ¬(a.toInt = -2 ^ 31 ∧ b.toInt = -1)) :
    aluDiv p a b = some (BitVec.ofInt 32 ((a.toInt * b.toInt).sign * (a.toInt.natAbs / b.toInt.natAbs : Nat))) := by
  unfold aluDiv
  rw [if_neg hb, if_neg h, tdiv_eq_sign_mul_floor]

theorem aluRem_fault {a b : Word} (hb : b.toInt = 0) : aluRem .fault a b = none := by
  rw [aluRem, if_pos hb]

theorem aluRem_sentinel {a b : Word} (hb : b.toInt = 0) : aluRem .sentinel a b = some a := by
  rw [aluRem, if_pos hb]

theorem aluRem_overflow {p : DivZero} {a b : Word} (h : a.toInt = -2 ^ 31 ∧ b.toInt = -1) :
    aluRem p a b = some 0 := by
  have hb : b.toInt ≠ 0 := by omega
  unfold aluRem
  rw [if_neg hb, if_pos h]

/-- REM of every other pair: what the quotient of DIV leaves, mod 2^32. -/
theorem aluRem_remainder {p : DivZero} {a b : Word} (hb : b.toInt ≠ 0) (h : ¬(a.toInt = -2 ^ 31 ∧ b.toInt = -1)) :
    aluRem p a b = some (BitVec.ofInt 32
      (a.toInt - b.toInt * ((a.toInt * b.toInt).sign * (a.toInt.natAbs / b.toInt.natAbs : Nat)))) := by
  unfold aluRem
  rw [if_neg hb, if_neg h, tdiv_eq_sign_mul_floor]

/-- Settles O37: the four cases of the quotient. -/
theorem divTruncatesTowardZero : Obligations.DivTruncatesTowardZero := by
  refine ⟨encodedR_of_mem (m := .div) (by decide) rfl fun _ => rfl, ?_⟩
  rintro rd rs1 rs2 s _ _ rfl rfl
  refine ⟨fun hb hp => ?fault, fun hb hp => ?sentinel, fun h => ?overflow, fun ⟨hb, h⟩ => ?quotient⟩
  case fault => exact aluDivision_faults rd (hp ▸ aluDiv_fault hb)
  case sentinel => exact aluDivision_writes rd (hp ▸ aluDiv_sentinel hb)
  case overflow => exact aluDivision_writes rd (aluDiv_overflow h)
  case quotient => exact aluDivision_writes rd (aluDiv_quotient hb h)

/-- Settles O38: the four cases of the remainder. -/
theorem remComplementsDiv : Obligations.RemComplementsDiv := by
  refine ⟨encodedR_of_mem (m := .rem) (by decide) rfl fun _ => rfl, ?_⟩
  rintro rd rs1 rs2 s _ _ rfl rfl
  refine ⟨fun hb hp => ?fault, fun hb hp => ?sentinel, fun h => ?overflow, fun ⟨hb, h⟩ => ?remainder⟩
  case fault => exact aluDivision_faults rd (hp ▸ aluRem_fault hb)
  case sentinel => exact aluDivision_writes rd (hp ▸ aluRem_sentinel hb)
  case overflow => exact aluDivision_writes rd (aluRem_overflow h)
  case remainder => exact aluDivision_writes rd (aluRem_remainder hb h)

end Sys2Proof.Machine
end

section
/-! PROOFS. Loads and stores (42_load_store.md R241 to R246). A load's value is its bytes side by side, most significant
first; a store's bytes are the fields of the data register, each at the place value `byteRank` gives it. With these
two facts put in, the shapes `loadAt` and `storeAt` say what every width does. -/

namespace Sys2Proof.Machine

/-! ### Encodings in the S format -/

/-- The S format has its registers at the positions of the I format's (30_encoding.md R105). -/
theorem encodedI_of_mem_formatS {op : Opcode} {m : Mnemonic} {f : RegIdx → RegIdx → BitVec 15 → Instr}
    (hmem : (op, .instr m) ∈ defaultOpcodes) (hS : m.itype = .S)
    (hf : ∀ d, instrOf m d = f d.rs1 d.rs2 (d.imm.setWidth 15)) : EncodedI op f := by
  intro w hop
  rw [decode_default_of_mem hmem hop, hS, hf]
  simp only [decodeAs, Laws.FieldsRoundTrip.imm15_kept]

/-! ### Bytes side by side -/

/-- A value of weight 256 with a byte added to it is the value's bits with the byte's appended below them. -/
theorem ofNat_byte_add {w : Nat} (b : Byte) (v : Nat) :
    BitVec.ofNat (w + 8) (b.toNat + 256 * v) = BitVec.ofNat w v ++ b := by
  have hweight : b.toNat + 256 * v = 2 ^ 8 * v + b.toNat := Nat.add_comm ..
  apply BitVec.eq_of_getLsbD_eq
  intro i hi
  rw [BitVec.getLsbD_ofNat, hweight, Nat.testBit_two_pow_mul_add v b.isLt, BitVec.getLsbD_append]
  by_cases hlow : i < 8
  · simp only [if_pos hlow, BitVec.testBit_toNat, hi, decide_true, Bool.true_and]
  · have hhigh : i - 8 < w := by omega
    simp only [if_neg hlow, BitVec.getLsbD_ofNat, hi, hhigh]

theorem ofNat_natOfBytesLE_one (b : Byte) : BitVec.ofNat 8 (natOfBytesLE [b]) = b := by
  simp [natOfBytesLE]

theorem ofNat_natOfBytesLE_two (b₀ b₁ : Byte) : BitVec.ofNat 16 (natOfBytesLE [b₀, b₁]) = b₁ ++ b₀ := by
  rw [natOfBytesLE, ofNat_byte_add (w := 8), ofNat_natOfBytesLE_one]

theorem ofNat_natOfBytesLE_four (b₀ b₁ b₂ b₃ : Byte) :
    BitVec.ofNat 32 (natOfBytesLE [b₀, b₁, b₂, b₃]) = b₃ ++ b₂ ++ b₁ ++ b₀ := by
  rw [natOfBytesLE, ofNat_byte_add (w := 24), natOfBytesLE, ofNat_byte_add (w := 16), ofNat_natOfBytesLE_two]

/-- A byte is sign-extended from its own bit 7 (42_load_store.md R247). -/
theorem sext8_natOfBytesLE (b : Byte) : sext8 (natOfBytesLE [b]) = b.signExtend 32 := by
  rw [sext8, ofNat_natOfBytesLE_one]

/-- A half-word is sign-extended from its own bit 15 (42_load_store.md R247). -/
theorem sext16_natOfBytesLE (b₀ b₁ : Byte) : sext16 (natOfBytesLE [b₀, b₁]) = (b₁ ++ b₀).signExtend 32 := by
  rw [sext16, ofNat_natOfBytesLE_two]

/-! ### The shape of a load with a known value -/

theorem loadAt_writes {n : Nat} {ext : Nat → Word} {rs1 : RegIdx} {imm : BitVec 15} {s : State} {v : Word}
    (rd : RegIdx) (hin : (effAddr s rs1 imm).toNat + n ≤ s.cfg.memSize)
    (hv : ext (natOfBytes s.cfg.byteOrder (s.mem.readBytes (effAddr s rs1 imm).toNat n)) = v) :
    ∃ t, loadAt n ext rd rs1 imm s = .next t ∧ OnlyWrites rd v s t := by
  simpa only [if_pos hin, hv] using loadAt_spec n ext rd rs1 imm s

theorem loadAt_faults {n : Nat} {rs1 : RegIdx} {imm : BitVec 15} {s : State} (ext : Nat → Word) (rd : RegIdx)
    (hout : s.cfg.memSize < (effAddr s rs1 imm).toNat + n) :
    ∃ t, loadAt n ext rd rs1 imm s = .next t ∧
      FaultTaken (.outOfBounds (effAddr s rs1 imm) n .load (s.pc - 4)) s t := by
  simpa only [if_neg (Nat.not_le.mpr hout), fetchPcOf] using loadAt_spec n ext rd rs1 imm s

/-- Settles O40: for each width the value of the bytes read, in either byte order, and the fault of the bounds check. -/
theorem loadsExtendTheBytesRead : Obligations.LoadsExtendTheBytesRead := by
  refine ⟨encodedI_of_mem (m := .lb) (by decide) rfl fun _ => rfl,
    encodedI_of_mem (m := .lh) (by decide) rfl fun _ => rfl,
    encodedI_of_mem (m := .lw) (by decide) rfl fun _ => rfl, ?_⟩
  rintro rd rs1 imm s _ rfl
  refine ⟨fun hin => loadAt_writes rd hin ?byte, loadAt_faults sext8 rd,
    fun hin => loadAt_writes rd hin ?half, loadAt_faults sext16 rd,
    fun hin => loadAt_writes rd hin ?word, loadAt_faults (BitVec.ofNat 32) rd⟩
  case byte =>
    cases s.cfg.byteOrder with
    | little => exact sext8_natOfBytesLE _
    | big => exact sext8_natOfBytesLE _
  case half =>
    cases s.cfg.byteOrder with
    | little => exact sext16_natOfBytesLE _ _
    | big => exact sext16_natOfBytesLE _ _
  case word =>
    cases s.cfg.byteOrder with
    | little => exact ofNat_natOfBytesLE_four _ _ _ _
    | big => exact ofNat_natOfBytesLE_four _ _ _ _

/-! ### The shape of a store with known bytes -/

/-- A byte of a value, by division, is a field of its bits. -/
theorem ofNat_div_eq_extract (v : Word) (p : Nat) : BitVec.ofNat 8 (v.toNat / 2 ^ p) = v.extractLsb' p 8 := by
  rw [BitVec.extractLsb', Nat.shiftRight_eq_div_pow]

theorem storeAt_writes {n : Nat} {rs1 rs2 : RegIdx} {imm : BitVec 15} {s : State} {byteAt : Nat → Byte}
    (hin : (effAddr s rs2 imm).toNat + n ≤ s.cfg.memSize)
    (hbytes : ∀ k, k < n → (readReg s rs1).extractLsb' (8 * byteRank s.cfg.byteOrder n k) 8 = byteAt k) :
    ∃ t, storeAt n rs1 rs2 imm s = .next t ∧
      (∀ k, k < n → t.mem.read ((effAddr s rs2 imm).toNat + k) = byteAt k) ∧
      SameMemOutside (effAddr s rs2 imm).toNat n s t ∧ SameRegs s t ∧ t.pc = s.pc ∧ Continued s t := by
  obtain ⟨m, hwrite, hframe, hread⟩ := memWrite_inBounds s _ n (readReg s rs1).toNat (fetchPcOf s) hin
  refine ⟨(s.setMem m).setOutcome (some .continued), ?_, fun k hk => ?_, hframe, fun _ => rfl, rfl, rfl, rfl, rfl, rfl⟩
  · simp only [storeAt, hwrite, finish_spec]
  · exact (hread k hk).trans ((ofNat_div_eq_extract _ _).trans (hbytes k hk))

theorem storeAt_faults {n : Nat} {rs2 : RegIdx} {imm : BitVec 15} {s : State} (rs1 : RegIdx)
    (hout : s.cfg.memSize < (effAddr s rs2 imm).toNat + n) :
    ∃ t, storeAt n rs1 rs2 imm s = .next t ∧
      FaultTaken (.outOfBounds (effAddr s rs2 imm) n .store (s.pc - 4)) s t := by
  simpa only [if_neg (Nat.not_le.mpr hout), fetchPcOf] using storeAt_spec n rs1 rs2 imm s

/-- The one byte of a byte datum has place value 0 in either order (20_memory.md R63). -/
theorem byteRank_one_zero (o : ByteOrder) : byteRank o 1 0 = 0 := by
  cases o with
  | little => rfl
  | big => rfl

/-- Settles O41: for each width the bytes the data register's fields lay down, in either byte order, and the fault of
the bounds check. -/
theorem storesWriteTheLowBytes : Obligations.StoresWriteTheLowBytes := by
  refine ⟨encodedI_of_mem_formatS (m := .sb) (by decide) rfl fun _ => rfl,
    encodedI_of_mem_formatS (m := .sh) (by decide) rfl fun _ => rfl,
    encodedI_of_mem_formatS (m := .sw) (by decide) rfl fun _ => rfl, ?_⟩
  rintro rs1 rs2 imm s _ rfl
  refine ⟨fun hin => ?byte, storeAt_faults rs1, fun hin => storeAt_writes hin fun k _ => ?half, storeAt_faults rs1,
    fun hin => storeAt_writes hin fun k _ => ?word, storeAt_faults rs1⟩
  case byte =>
    obtain ⟨t, ht, hbyte, hrest⟩ := storeAt_writes (rs1 := rs1) hin fun _ _ => rfl
    have hlow := hbyte 0 Nat.one_pos
    rw [byteRank_one_zero] at hlow
    exact ⟨t, ht, hlow, hrest⟩
  case half =>
    cases s.cfg.byteOrder with
    | little => rfl
    | big => rfl
  case word =>
    cases s.cfg.byteOrder with
    | little => rfl
    | big => rfl

end Sys2Proof.Machine
end

section
/-! PROOFS. Branches and jumps (43_control.md R261 to R266). The shape `branchIf` with its condition in the spec's words,
the shape `jumpLink` with its frame, and the U format's encoding; the statements are assembled from them. -/

namespace Sys2Proof.Machine

/-! ### Encodings in the U format -/

/-- The U format's immediate fills the record's field, so nothing of it is cut (30_encoding.md R106). -/
theorem encodedU_of_mem {op : Opcode} {m : Mnemonic} {f : RegIdx → BitVec 20 → Instr}
    (hmem : (op, .instr m) ∈ defaultOpcodes) (hU : m.itype = .U) (hf : ∀ d, instrOf m d = f d.rd d.imm) :
    EncodedU op f := by
  intro w hop
  rw [decode_default_of_mem hmem hop, hU, hf]
  rfl

/-! ### The shape of a branch with its condition known -/

/-- A branch whose comparison decides `P` goes to the immediate exactly where `P` holds, and pc is all it changes
(R260). -/
theorem branchIf_goes {c : Word → Word → Bool} {rs1 rs2 : RegIdx} {s : State} {P : Prop} [Decidable P]
    (imm : BitVec 15) (hcond : c (readReg s rs1) (readReg s rs2) = true ↔ P) :
    ∃ t, branchIf c rs1 rs2 imm s = .next t ∧ t.pc = (if P then imm.signExtend 32 else s.pc) ∧
      SameRegs s t ∧ SameMem s t ∧ Continued s t :=
  ⟨_, branchIf_spec c rs1 rs2 imm s, if_congr hcond rfl rfl, fun _ => rfl, fun _ => rfl, rfl, rfl, rfl, rfl⟩

/-- Settles O43: each comparison decides the spec's condition, and the shape of a branch does the rest. -/
theorem branchesCompareAndGoToTheImmediate : Obligations.BranchesCompareAndGoToTheImmediate := by
  refine ⟨encodedI_of_mem_formatS (m := .beq) (by decide) rfl fun _ => rfl,
    encodedI_of_mem_formatS (m := .bne) (by decide) rfl fun _ => rfl,
    encodedI_of_mem_formatS (m := .blt) (by decide) rfl fun _ => rfl,
    encodedI_of_mem_formatS (m := .bge) (by decide) rfl fun _ => rfl, ?_⟩
  rintro rs1 rs2 imm s _ _ rfl rfl
  exact ⟨branchIf_goes imm (eqWords_iff _ _), branchIf_goes imm (neWords_iff _ _),
    branchIf_goes imm (ltSigned_iff _ _), branchIf_goes imm (geSigned_iff _ _)⟩

/-! ### The shape of a jump -/

/-- A jump changes rd, which takes the address of the next instruction, and pc, and nothing else. -/
theorem jumpLink_links (rd : RegIdx) (target : Word) (s : State) :
    ∃ t, jumpLink rd target s = .next t ∧ RegWritten rd s.pc s t ∧ t.pc = target ∧ SameMem s t ∧ Continued s t := by
  obtain ⟨t, ht, hlink, hpc, hmem, hcont⟩ := jumpLink_spec rd target s
  exact ⟨t, ht, hlink, hpc, fun a => congrArg (Memory.read · a) hmem, hcont⟩

/-- Settles O44: JAL and JALR are one jump to two targets, each read in the state before the link is written. -/
theorem jumpsLinkTheNextInstruction : Obligations.JumpsLinkTheNextInstruction :=
  ⟨encodedU_of_mem (m := .jal) (by decide) rfl fun _ => rfl,
    encodedI_of_mem (m := .jalr) (by decide) rfl fun _ => rfl,
    fun rd imm s => jumpLink_links rd (immU imm) s,
    fun rd rs1 imm s => jumpLink_links rd (effAddr s rs1 imm) s⟩

end Sys2Proof.Machine
end

section
/-! PROOFS. System calls and breakpoint (44_system.md R281 to R285). The E format's encoding, the value of a7 that selects
each arm of ECALL, and the arms with their checks known; the statements are assembled from them. -/

namespace Sys2Proof.Machine

/-! ### Encodings in the E format -/

/-- The E format has no operands, so every record gives the same instruction (30_encoding.md R107). -/
theorem encodedE_of_mem {op : Opcode} {m : Mnemonic} {i : Instr} (hmem : (op, .instr m) ∈ defaultOpcodes)
    (hi : ∀ d, instrOf m d = i) : EncodedE op i := by
  intro w hop
  rw [decode_default_of_mem hmem hop, hi]

/-! ### The service a7 selects -/

theorem exec_ecall_write {s : State} (h : readReg s regA7 = 64) : exec .ecall s = syscallWrite s :=
  if_pos h

theorem exec_ecall_exit {s : State} (h : readReg s regA7 = 93) : exec .ecall s = exitWith (readReg s regA0) s := by
  have hne : readReg s regA7 ≠ 64 := by simp [h]
  exact (if_neg hne).trans (if_pos h)

theorem exec_ecall_other {s : State} (hwrite : readReg s regA7 ≠ 64) (hexit : readReg s regA7 ≠ 93) :
    exec .ecall s = raise (.unhandledSyscall (readReg s regA7) (fetchPcOf s)) s :=
  (if_neg hwrite).trans (if_neg hexit)

/-! ### The fd check -/

/-- A stream's number names the stream. -/
theorem fdOfWord_number (fd : Fd) : fdOfWord fd.number = some fd := by
  cases fd <;> rfl

/-- A word other than 1 and 2 names no stream (R282). -/
theorem fdOfWord_eq_none {v : Word} (h1 : v ≠ 1) (h2 : v ≠ 2) : fdOfWord v = none :=
  (if_neg h1).trans (if_neg h2)

theorem exists_number_eq {v : Word} (h : v = 1 ∨ v = 2) : ∃ fd : Fd, v = fd.number := by
  rcases h with h | h
  · exact ⟨.stdout, h⟩
  · exact ⟨.stderr, h⟩

/-! ### The write service with its checks known -/

theorem syscallWrite_emits {s : State} {fd : Fd} (hfd : readReg s regA0 = fd.number)
    (hin : (readReg s regA1).toNat + (readReg s regA2).toNat ≤ s.cfg.memSize) :
    syscallWrite s = .next ((emit fd (s.mem.readBytes (readReg s regA1).toNat (readReg s regA2).toNat) s).setOutcome
      (some .continued)) := by
  obtain ⟨t, ht, h⟩ := syscallWrite_spec s
  simp only [hfd, fdOfWord_number, if_pos hin] at h
  rw [ht, h]

theorem syscallWrite_invalidFd {s : State} (h1 : readReg s regA0 ≠ 1) (h2 : readReg s regA0 ≠ 2) :
    ∃ t, syscallWrite s = .next t ∧
      FaultTaken (.invalidSyscallArgument (readReg s regA0) (s.pc - 4)) s t := by
  simpa only [fdOfWord_eq_none h1 h2, fetchPcOf] using syscallWrite_spec s

theorem syscallWrite_outOfBounds {s : State} {fd : Fd} (hfd : readReg s regA0 = fd.number)
    (hout : s.cfg.memSize < (readReg s regA1).toNat + (readReg s regA2).toNat) :
    ∃ t, syscallWrite s = .next t ∧
      FaultTaken (.outOfBounds (readReg s regA1) (readReg s regA2).toNat .syscall (s.pc - 4)) s t := by
  simpa only [hfd, fdOfWord_number, if_neg (Nat.not_le.mpr hout), fetchPcOf] using syscallWrite_spec s

/-- The bytes of a range stand at their offsets (20_memory.md R70). -/
theorem Memory.getElem?_readBytes (m : Memory) (a : Nat) {n k : Nat} (hk : k < n) :
    (m.readBytes a n)[k]? = some (m.read (a + k)) := by
  have hlen : k < (m.readBytes a n).length := by rwa [Memory.length_readBytes]
  rw [List.getElem?_eq_getElem hlen, Memory.getElem_readBytes]

/-- Settles O46: the write service in the three cases of its two checks, the fd check first. -/
theorem writeCallEmitsTheBytes : Obligations.WriteCallEmitsTheBytes := by
  rintro s _ _ hwrite rfl rfl
  rw [exec_ecall_write hwrite]
  refine ⟨fun fd hfd hin => ?emits, fun ⟨h1, h2⟩ => syscallWrite_invalidFd h1 h2, fun hfd hout => ?outOfBounds⟩
  case emits =>
    exact ⟨_, _, syscallWrite_emits hfd hin, rfl, Memory.length_readBytes _ _ _,
      fun k hk => Memory.getElem?_readBytes s.mem _ hk, fun _ => rfl, fun _ => rfl, rfl, rfl, rfl, rfl⟩
  case outOfBounds =>
    obtain ⟨fd, hnumber⟩ := exists_number_eq hfd
    exact syscallWrite_outOfBounds hnumber hout

/-! ### Exit and the other values of a7 -/

/-- Settles O47: the arm of each value of a7, and what an exit and a fault change. -/
theorem exitCallHaltsAndOtherCallsFault : Obligations.ExitCallHaltsAndOtherCallsFault := by
  refine ⟨encodedE_of_mem (m := .ecall) (by decide) fun _ => rfl, fun s hexit => ?exit,
    fun s ⟨hwrite, hexit⟩ => ?other⟩
  case exit =>
    rw [exec_ecall_exit hexit, exitWith_eq]
    exact ⟨_, rfl, rfl, rfl, fun _ => rfl, fun _ => rfl, rfl, rfl, rfl⟩
  case other =>
    rw [exec_ecall_other hwrite hexit]
    exact raise_spec _ s

/-! ### Breakpoint -/

theorem exec_ebreak (s : State) : exec .ebreak s = .next (s.setOutcome (some .breakpoint)) := breakpoint_eq s

/-- What a step fetches does not depend on what the step before it returned. -/
theorem fetches_setOutcome (s : State) (o : Option StepOutcome) (i : Instr) :
    Fetches (s.setOutcome o) i ↔ Fetches s i := Iff.rfl

/-- Settles O48: EBREAK writes the outcome alone, so the step after it fetches from the state it saw. -/
theorem breakpointDoesNotHalt : Obligations.BreakpointDoesNotHalt := by
  refine ⟨encodedE_of_mem (m := .ebreak) (by decide) fun _ => rfl, fun s => ?frame, fun s i hbreak hnext => ?resume⟩
  case frame => exact ⟨_, exec_ebreak s, rfl, rfl, fun _ => rfl, fun _ => rfl, rfl, rfl, rfl⟩
  case resume =>
    have hstep := (step_of_fetches hbreak).trans (exec_ebreak (advanced s))
    have hfetches := (fetches_setOutcome (advanced s) (some .breakpoint) i).mpr hnext
    obtain ⟨hrun, _, _⟩ := hbreak
    exact ⟨_, hstep, rfl, hrun, rfl, step_of_fetches hfetches⟩

end Sys2Proof.Machine
end

section
/-! PROOFS. The priority of faults (60_exceptions.md R303). `exec_returnsFault` says once which fault an instruction
returns: that of its own check. `stepFault` has one equation per stage of the cycle, and `step_returnsFault` sets each
beside what a step does there. -/

namespace Sys2Proof.Machine

/-- The result is a next state, and `f` is the fault it returns, if it returns one. -/
def ReturnsFault (r : Result) (f : Option Fault) : Prop := ∃ t, r = .next t ∧ faultOf t = f

/-! ### The ways a step ends -/

theorem Continued.faultOf_eq_none {s t : State} (h : Continued s t) : faultOf t = none := by
  obtain ⟨_, _, _, hout⟩ := h
  rw [faultOf, hout]

theorem returnsFault_of_onlyWrites {r : Result} {rd : RegIdx} {v : Word} {s : State}
    (h : ∃ t, r = .next t ∧ OnlyWrites rd v s t) : ReturnsFault r none := by
  obtain ⟨t, ht, _, _, _, hcont⟩ := h
  exact ⟨t, ht, hcont.faultOf_eq_none⟩

theorem returnsFault_of_faultTaken {r : Result} {f : Fault} {s : State}
    (h : ∃ t, r = .next t ∧ FaultTaken f s t) : ReturnsFault r (some f) := by
  obtain ⟨t, ht, _, hout, _⟩ := h
  exact ⟨t, ht, by rw [faultOf, hout]⟩

/-- The `at` of an instruction's own fault: the pc its word was fetched from (R301). -/
theorem advanced_pc_sub_four (s : State) : (advanced s).pc - 4 = s.pc := fetchPcOf_advanced s

/-! ### The instructions that check nothing -/

theorem aluReg_returnsFault (f : Word → Word → Word) (rd rs1 rs2 : RegIdx) (s : State) :
    ReturnsFault (aluReg f rd rs1 rs2 s) none :=
  returnsFault_of_onlyWrites (aluReg_spec f rd rs1 rs2 s)

theorem aluImm_returnsFault (f : Word → Word → Word) (rd rs1 : RegIdx) (imm : BitVec 15) (s : State) :
    ReturnsFault (aluImm f rd rs1 imm s) none :=
  returnsFault_of_onlyWrites (aluImm_spec f rd rs1 imm s)

theorem branchIf_returnsFault (c : Word → Word → Bool) (rs1 rs2 : RegIdx) (imm : BitVec 15) (s : State) :
    ReturnsFault (branchIf c rs1 rs2 imm s) none :=
  ⟨_, branchIf_spec c rs1 rs2 imm s, rfl⟩

theorem jumpLink_returnsFault (rd : RegIdx) (target : Word) (s : State) :
    ReturnsFault (jumpLink rd target s) none := by
  obtain ⟨t, ht, _, _, _, hcont⟩ := jumpLink_spec rd target s
  exact ⟨t, ht, hcont.faultOf_eq_none⟩

theorem exec_ebreak_returnsFault (s : State) : ReturnsFault (exec .ebreak s) none :=
  ⟨_, exec_ebreak s, rfl⟩

/-! ### The check of a division -/

/-- DIV and REM have no value in the same case: the divisor is 0 and the policy is to fault (41_alu.md R204, R205). -/
theorem aluDiv_aluRem_eq_none_iff (p : DivZero) (a b : Word) :
    (aluDiv p a b = none ↔ b = 0 ∧ p = .fault) ∧ (aluRem p a b = none ↔ b = 0 ∧ p = .fault) := by
  have hzero : b = 0 ↔ b.toInt = 0 := BitVec.toInt_inj.symm
  rw [hzero]
  by_cases hb : b.toInt = 0
  · cases p with
    | fault => simp [hb, aluDiv_fault, aluRem_fault]
    | sentinel => simp [hb, aluDiv_sentinel, aluRem_sentinel]
  · by_cases hover : a.toInt = -2 ^ 31 ∧ b.toInt = -1
    · simp [hb, aluDiv_overflow hover, aluRem_overflow hover]
    · simp [hb, aluDiv_quotient hb hover, aluRem_remainder hb hover]

theorem aluDivision_returnsFault {f : DivZero → Word → Word → Option Word}
    (hf : ∀ p a b, f p a b = none ↔ b = 0 ∧ p = .fault) (rd rs1 rs2 : RegIdx) (s : State) :
    ReturnsFault (aluDivision f rd rs1 rs2 (advanced s))
      (if readReg s rs2 = 0 ∧ s.cfg.divZero = .fault then some (.divideByZero s.pc) else none) := by
  have hnone := hf s.cfg.divZero (readReg s rs1) (readReg s rs2)
  split
  next hzero =>
    rw [← advanced_pc_sub_four s]
    exact returnsFault_of_faultTaken (aluDivision_faults rd (hnone.mpr hzero))
  next hnonzero =>
    obtain ⟨v, hv⟩ := Option.ne_none_iff_exists'.mp (mt hnone.mp hnonzero)
    exact returnsFault_of_onlyWrites (aluDivision_writes (s := advanced s) rd hv)

/-! ### The bounds check of an access -/

/-- What passes in bounds and takes OutOfBounds out of them returns the fault of the bounds check. -/
theorem returnsFault_boundsFault {r : Result} {s : State} {a : Word} {n : Nat} {kind : AccessKind}
    (hin : a.toNat + n ≤ s.cfg.memSize → ReturnsFault r none)
    (hout : s.cfg.memSize < a.toNat + n →
      ∃ t, r = .next t ∧ FaultTaken (.outOfBounds a n kind ((advanced s).pc - 4)) (advanced s) t) :
    ReturnsFault r (boundsFault s a n kind) := by
  unfold boundsFault
  split
  next hlt =>
    rw [← advanced_pc_sub_four s]
    exact returnsFault_of_faultTaken (hout hlt)
  next hnlt => exact hin (Nat.not_lt.mp hnlt)

theorem loadAt_returnsFault (n : Nat) (ext : Nat → Word) (rd rs1 : RegIdx) (imm : BitVec 15) (s : State) :
    ReturnsFault (loadAt n ext rd rs1 imm (advanced s)) (boundsFault s (effAddr s rs1 imm) n .load) :=
  returnsFault_boundsFault (fun hin => returnsFault_of_onlyWrites (loadAt_writes (s := advanced s) rd hin rfl))
    (loadAt_faults (s := advanced s) ext rd)

theorem storeAt_returnsFault (n : Nat) (rs1 rs2 : RegIdx) (imm : BitVec 15) (s : State) :
    ReturnsFault (storeAt n rs1 rs2 imm (advanced s)) (boundsFault s (effAddr s rs2 imm) n .store) := by
  refine returnsFault_boundsFault (fun hin => ?_) (storeAt_faults (s := advanced s) rs1)
  obtain ⟨t, ht, _, _, _, _, hcont⟩ := storeAt_writes (s := advanced s) (rs1 := rs1) hin fun _ _ => rfl
  exact ⟨t, ht, hcont.faultOf_eq_none⟩

/-! ### The checks of a system call -/

/-- The write service checks the fd before the bounds (R303). -/
theorem syscallWrite_returnsFault (s : State) :
    ReturnsFault (syscallWrite (advanced s))
      (if readReg s regA0 ≠ 1 ∧ readReg s regA0 ≠ 2 then some (.invalidSyscallArgument (readReg s regA0) s.pc)
      else boundsFault s (readReg s regA1) (readReg s regA2).toNat .syscall) := by
  split
  next hbad =>
    obtain ⟨h1, h2⟩ := hbad
    rw [← advanced_pc_sub_four s]
    exact returnsFault_of_faultTaken (syscallWrite_invalidFd (s := advanced s) h1 h2)
  next hgood =>
    obtain ⟨fd, hfd⟩ := exists_number_eq (v := readReg s regA0) (by tauto)
    exact returnsFault_boundsFault (fun hin => ⟨_, syscallWrite_emits (s := advanced s) hfd hin, rfl⟩)
      (syscallWrite_outOfBounds (s := advanced s) hfd)

/-- ECALL checks a7 before the service's own checks (R303, 44_system.md R281). -/
theorem exec_ecall_returnsFault (s : State) : ReturnsFault (exec .ecall (advanced s)) (ownFault .ecall s) := by
  rw [ownFault]
  split
  next hwrite =>
    rw [exec_ecall_write (s := advanced s) hwrite]
    exact syscallWrite_returnsFault s
  next hnotWrite =>
    split
    next hexit => exact ⟨_, exec_ecall_exit (s := advanced s) hexit, rfl⟩
    next hnotExit =>
      rw [exec_ecall_other (s := advanced s) hnotWrite hnotExit, fetchPcOf_advanced]
      exact returnsFault_of_faultTaken (raise_spec _ _)

/-! ### Every instruction -/

/-- An instruction returns the fault of its own check, and none where that passes (R303, the fourth check). -/
theorem exec_returnsFault (i : Instr) (s : State) : ReturnsFault (exec i (advanced s)) (ownFault i s) := by
  cases i with
  | add rd rs1 rs2 | sub rd rs1 rs2 | mul rd rs1 rs2 | and rd rs1 rs2 | or rd rs1 rs2 | xor rd rs1 rs2
  | sll rd rs1 rs2 | srl rd rs1 rs2 | sra rd rs1 rs2 | slt rd rs1 rs2 => exact aluReg_returnsFault _ rd rs1 rs2 _
  | div rd rs1 rs2 => exact aluDivision_returnsFault (fun p a b => (aluDiv_aluRem_eq_none_iff p a b).left) rd rs1 rs2 s
  | rem rd rs1 rs2 => exact aluDivision_returnsFault (fun p a b => (aluDiv_aluRem_eq_none_iff p a b).right) rd rs1 rs2 s
  | addi rd rs1 imm | subi rd rs1 imm | andi rd rs1 imm | ori rd rs1 imm | xori rd rs1 imm
  | slli rd rs1 imm | srli rd rs1 imm | srai rd rs1 imm | slti rd rs1 imm => exact aluImm_returnsFault _ rd rs1 imm _
  | lb rd rs1 imm | lh rd rs1 imm | lw rd rs1 imm => exact loadAt_returnsFault _ _ rd rs1 imm s
  | sb rs1 rs2 imm | sh rs1 rs2 imm | sw rs1 rs2 imm => exact storeAt_returnsFault _ rs1 rs2 imm s
  | beq rs1 rs2 imm | bne rs1 rs2 imm | blt rs1 rs2 imm | bge rs1 rs2 imm =>
    exact branchIf_returnsFault _ rs1 rs2 imm _
  | jalr rd rs1 imm => exact jumpLink_returnsFault rd _ _
  | jal rd imm => exact jumpLink_returnsFault rd _ _
  | ecall => exact exec_ecall_returnsFault s
  | ebreak => exact exec_ebreak_returnsFault _

/-! ### The stages of the cycle -/

theorem stepFault_of_fetch_outOfBounds {s : State} (h : s.cfg.memSize < s.pc.toNat + 4) :
    stepFault s = some (.outOfBounds s.pc 4 .fetch s.pc) :=
  if_pos h

/-- The second and the third check of R303: a word that does not decode, and one that decodes and has no rule. -/
theorem stepFault_of_decode_error {s : State} {e : DecodeError} (hfetch : legal s s.pc 4)
    (hdec : decode s.cfg.opcodes (wordAtPc s) = .error e) :
    stepFault s = some (faultOfDecode e (advanced s)) := by
  rw [stepFault, if_neg (Nat.not_lt.mpr hfetch), hdec]
  cases e with
  | invalidOpcode op w => rw [faultOfDecode, fetchPcOf_advanced]
  | unhandledOpcode op => rw [faultOfDecode, fetchPcOf_advanced]

theorem stepFault_of_fetches {s : State} {i : Instr} (h : Fetches s i) : stepFault s = ownFault i s := by
  obtain ⟨_, hfetch, hdec⟩ := h
  rw [stepFault, if_neg (Nat.not_lt.mpr hfetch), hdec]

/-- A step of a running core returns the first check of R303 that fails, stage by stage. -/
theorem step_returnsFault {s : State} (hrun : s.run = .running) : ReturnsFault (step s) (stepFault s) := by
  by_cases hfetch : legal s s.pc 4
  · cases hdec : decode s.cfg.opcodes (wordAtPc s) with
    | error e =>
      rw [stepFault_of_decode_error hfetch hdec]
      exact returnsFault_of_faultTaken (step_of_decode_error hrun hfetch hdec)
    | ok i =>
      have hfetches : Fetches s i := ⟨hrun, hfetch, hdec⟩
      rw [step_of_fetches hfetches, stepFault_of_fetches hfetches]
      exact exec_returnsFault i s
  · have hout := Nat.not_le.mp hfetch
    rw [stepFault_of_fetch_outOfBounds hout]
    exact returnsFault_of_faultTaken (step_of_fetch_outOfBounds hrun hout)

/-- Settles O12, by the stages of the cycle: fetch, decode and dispatch, then the instruction's own check. -/
theorem firstFailingCheckDecidesTheFault : Obligations.FirstFailingCheckDecidesTheFault := by
  intro s t hrun hstep
  obtain ⟨u, hu, hfault⟩ := step_returnsFault hrun
  cases hu.symm.trans hstep
  exact hfault

end Sys2Proof.Machine
end

section
/-! PROOFS. Reset, launch and reload (70_reset_and_hazards.md R340 to R347). The first layer says what `hostReset` does to
each field and what a load gives; the statements are read off it. -/

namespace Sys2Proof.Machine

/-! ### Reset, field by field -/

@[simp] theorem hostReset_cfg (s : State) : (hostReset s).cfg = s.cfg := rfl
@[simp] theorem hostReset_pc (s : State) : (hostReset s).pc = 0 := rfl
@[simp] theorem hostReset_mem (s : State) : (hostReset s).mem = [] := rfl
@[simp] theorem hostReset_run (s : State) : (hostReset s).run = .running := rfl
@[simp] theorem hostReset_output (s : State) : (hostReset s).output = s.output := rfl

@[simp] theorem hostReset_regs (s : State) : (hostReset s).regs = Vector.replicate 31 0 := rfl

/-- After Reset every register reads 0: register 0 always does, the other 31 are set (R340). -/
@[simp] theorem readReg_hostReset (s : State) (r : RegIdx) : readReg (hostReset s) r = 0 := by
  by_cases hr : r = 0
  · subst hr
    exact readReg_zero (hostReset s)
  · simp only [readReg, if_neg hr, hostReset_regs, Vector.getElem_replicate]

/-- After Reset every byte of memory reads 0 (R340). -/
theorem read_mem_hostReset (s : State) (a : Nat) : (hostReset s).mem.read a = 0 := Memory.read_nil a

/-- Settles O1, field by field; a created state has no output, so Reset gives it back. -/
theorem resetZeroesTheCoreAndKeepsParameters : Obligations.ResetZeroesTheCoreAndKeepsParameters := by
  constructor
  · intro s
    exact ⟨readReg_hostReset s, hostReset_pc s, read_mem_hostReset s, hostReset_run s, hostReset_cfg s,
      hostReset_output s⟩
  · intro c
    rfl

/-! ### Loading an image -/

theorem loadImage_of_fits {img : List Byte} {s : State} (h : img.length ≤ s.cfg.memSize) :
    loadImage img s = some (s.setMem (s.mem.writeBytes 0 img)) := if_pos h

theorem loadImage_of_too_long {img : List Byte} {s : State} (h : s.cfg.memSize < img.length) :
    loadImage img s = none := if_neg (Nat.not_le.mpr h)

/-- Memory with an image written at address 0: the image's bytes below its length, the old bytes above (R345). -/
theorem Memory.read_writeBytes_zero (m : Memory) (img : List Byte) (a : Nat) :
    (m.writeBytes 0 img).read a = if h : a < img.length then img[a] else m.read a := by
  rw [Memory.read_writeBytes]
  simp only [Nat.zero_le, Nat.zero_add, true_and, Nat.sub_zero]

/-- A load of an image that fits writes it at 0 and changes nothing but memory (R345). -/
theorem loadImage_keeps_the_core {img : List Byte} {s : State} (h : img.length ≤ s.cfg.memSize) :
    ∃ t, loadImage img s = some t ∧
      SameRegs s t ∧ t.pc = s.pc ∧ t.run = s.run ∧ t.output = s.output ∧ t.cfg = s.cfg ∧
      ∀ a, t.mem.read a = if h : a < img.length then img[a] else s.mem.read a :=
  ⟨_, loadImage_of_fits h, fun _ => rfl, rfl, rfl, rfl, rfl, Memory.read_writeBytes_zero s.mem img⟩

/-- The launch is the load into the state after Reset, whose fields are 0 (R347). -/
theorem launch_of_fits {img : List Byte} {s : State} (h : img.length ≤ s.cfg.memSize) :
    ∃ t, launch img s = some t ∧ (∀ r, readReg t r = 0) ∧ t.pc = 0 ∧ t.run = .running ∧
      ∀ a, t.mem.read a = if h : a < img.length then img[a] else 0 := by
  obtain ⟨t, hload, hregs, hpc, hrun, _, _, hmem⟩ := loadImage_keeps_the_core (s := hostReset s) h
  refine ⟨t, hload, fun r => ?_, hpc, hrun, fun a => ?_⟩
  · rw [hregs r, readReg_hostReset]
  · rw [hmem a, read_mem_hostReset]

/-- Settles O23: the launch and the reload are the same load, into the state after Reset and into the state given. -/
theorem launchAndReload : Obligations.LaunchAndReload :=
  ⟨fun _ _ => launch_of_fits, fun _ _ => loadImage_keeps_the_core, fun _ _ => loadImage_of_too_long⟩

/-! ### The first step after Reset -/

/-- The word fetched straight after Reset: four zero bytes are the zero word in either byte order (R343). -/
theorem wordAtPc_hostReset (s : State) : wordAtPc (hostReset s) = 0 := by
  apply BitVec.eq_of_toNat_eq
  simp only [toNat_wordAtPc, read_mem_hostReset, BitVec.ofNat_eq_ofNat, BitVec.toNat_ofNat, Nat.zero_mod, Nat.zero_mul,
    Finset.sum_const_zero]

/-- The default table reserves opcode 0, so the zero word is invalid (30_encoding.md R113). -/
theorem decode_default_zero : decode defaultOpcodes 0 = .error (.invalidOpcode 0 0) :=
  (reservedOpcodesAreExactlyTheInvalidOnes 0).1 (.inl rfl)

/-- Settles O24: memory has room for the fetch at 0, which reads the zero word, and that word does not decode. -/
theorem stepAfterResetFaultsOnTheZeroWord : Obligations.StepAfterResetFaultsOnTheZeroWord := by
  intro s htable hsize
  have hfetch : (hostReset s).pc.toNat + 4 ≤ (hostReset s).cfg.memSize := by simpa using hsize
  have hdec : decode (hostReset s).cfg.opcodes (wordAtPc (hostReset s)) = .error (.invalidOpcode 0 0) := by
    rw [hostReset_cfg, htable, wordAtPc_hostReset, decode_default_zero]
  obtain ⟨t, hstep, hfault⟩ := step_of_decode_error (hostReset_run s) hfetch hdec
  rw [faultOfDecode, fetchPcOf_advanced, hostReset_pc] at hfault
  exact ⟨t, hstep, hfault⟩

end Sys2Proof.Machine
end

section
/-! PROOFS. What an instruction changes (10_state.md section 1, 20_memory.md sections 1 and 4). `exec_hasEffect` says
once which of registers, memory and output an instruction changes, and how; the frame statements are read off it. -/

namespace Sys2Proof.Machine

/-! ### The effects -/

/-- The address and the length of the bytes an instruction stores, if it is a store (42_load_store.md R240). -/
def storeTarget (i : Instr) (s : State) : Option (Word × Nat) :=
  match i with
  | .sb _ rs2 imm => some (effAddr s rs2 imm, 1)
  | .sh _ rs2 imm => some (effAddr s rs2 imm, 2)
  | .sw _ rs2 imm => some (effAddr s rs2 imm, 4)
  | _ => none

/-- What `i`, executed on `s`, changes of registers, memory and output to answer `t`: nothing (a branch, a breakpoint,
an exit, a fault), the destination register, the bytes a store names, or the output of the write system call. Memory
is compared as data, so that the canonical form can be read off too. -/
inductive Effect (i : Instr) (s t : State) : Prop where
  | nothing (hregs : SameRegs s t) (hmem : t.mem = s.mem) (hout : t.output = s.output)
  | register (rd : RegIdx) (v : Word) (hdest : i.dest = some rd) (hreg : RegWritten rd v s t) (hmem : t.mem = s.mem)
      (hout : t.output = s.output)
  | store (a : Word) (bs : List Byte) (htarget : storeTarget i s = some (a, bs.length))
      (hin : a.toNat + bs.length ≤ s.cfg.memSize) (hregs : SameRegs s t) (hmem : t.mem = s.mem.writeBytes a.toNat bs)
      (hout : t.output = s.output)
  | event (e : OutputEvent) (hi : i = .ecall) (ha7 : readReg s regA7 = 64) (hcont : t.outcome = some .continued)
      (hregs : SameRegs s t) (hmem : t.mem = s.mem) (hout : t.output = s.output ++ [e])

/-- The result is a next state with an effect of `i`. -/
def HasEffect (i : Instr) (s : State) (r : Result) : Prop := ∃ t, r = .next t ∧ Effect i s t

/-! ### The ways an instruction ends -/

theorem raise_hasEffect (i : Instr) (f : Fault) (s : State) : HasEffect i s (raise f s) :=
  ⟨_, raise_eq f s, .nothing (fun _ => rfl) rfl rfl⟩

theorem finish_writeReg_hasEffect {i : Instr} {rd : RegIdx} (hdest : i.dest = some rd) (v : Word) (s : State) :
    HasEffect i s (finish (writeReg rd v s)) :=
  ⟨_, finish_spec _, .register rd v hdest (readReg_writeReg rd v s) (writeReg_mem rd v s) (writeReg_output rd v s)⟩

/-! ### The shapes of the instructions -/

theorem aluReg_hasEffect {i : Instr} {rd : RegIdx} (hdest : i.dest = some rd) (f : Word → Word → Word)
    (rs1 rs2 : RegIdx) (s : State) : HasEffect i s (aluReg f rd rs1 rs2 s) :=
  finish_writeReg_hasEffect hdest _ s

theorem aluImm_hasEffect {i : Instr} {rd : RegIdx} (hdest : i.dest = some rd) (f : Word → Word → Word)
    (rs1 : RegIdx) (imm : BitVec 15) (s : State) : HasEffect i s (aluImm f rd rs1 imm s) :=
  finish_writeReg_hasEffect hdest _ s

theorem aluDivision_hasEffect {i : Instr} {rd : RegIdx} (hdest : i.dest = some rd)
    (f : DivZero → Word → Word → Option Word) (rs1 rs2 : RegIdx) (s : State) :
    HasEffect i s (aluDivision f rd rs1 rs2 s) := by
  unfold aluDivision
  split
  · exact finish_writeReg_hasEffect hdest _ s
  · exact raise_hasEffect i _ s

theorem loadAt_hasEffect {i : Instr} {rd : RegIdx} (hdest : i.dest = some rd) (n : Nat) (ext : Nat → Word)
    (rs1 : RegIdx) (imm : BitVec 15) (s : State) : HasEffect i s (loadAt n ext rd rs1 imm s) := by
  unfold loadAt
  split
  · exact finish_writeReg_hasEffect hdest _ s
  · exact raise_hasEffect i _ s

theorem storeAt_hasEffect {i : Instr} {n : Nat} {rs2 : RegIdx} {imm : BitVec 15} {s : State}
    (htarget : storeTarget i s = some (effAddr s rs2 imm, n)) (rs1 : RegIdx) :
    HasEffect i s (storeAt n rs1 rs2 imm s) := by
  unfold storeAt
  rw [memWrite_spec]
  by_cases hin : (effAddr s rs2 imm).toNat + n ≤ s.cfg.memSize
  · simp only [if_pos hin]
    exact ⟨_, finish_spec _, .store _ (bytesOfNat s.cfg.byteOrder n (readReg s rs1).toNat)
      (by rwa [length_bytesOfNat]) (by rwa [length_bytesOfNat]) (fun _ => rfl) rfl rfl⟩
  · simp only [if_neg hin]
    exact raise_hasEffect i _ s

theorem branchIf_hasEffect (i : Instr) (c : Word → Word → Bool) (rs1 rs2 : RegIdx) (imm : BitVec 15) (s : State) :
    HasEffect i s (branchIf c rs1 rs2 imm s) :=
  ⟨_, branchIf_spec c rs1 rs2 imm s, .nothing (fun _ => rfl) rfl rfl⟩

theorem jumpLink_hasEffect {i : Instr} {rd : RegIdx} (hdest : i.dest = some rd) (target : Word) (s : State) :
    HasEffect i s (jumpLink rd target s) := by
  obtain ⟨t, ht, hlink, _, hmem, _, _, hout, _⟩ := jumpLink_spec rd target s
  exact ⟨t, ht, .register rd s.pc hdest hlink hmem hout⟩

theorem syscallWrite_hasEffect {s : State} (ha7 : readReg s regA7 = 64) :
    HasEffect .ecall s (syscallWrite s) := by
  unfold syscallWrite
  split
  · exact raise_hasEffect _ _ s
  · split
    · exact ⟨_, finish_spec _, .event _ rfl ha7 rfl (fun _ => rfl) rfl rfl⟩
    · exact raise_hasEffect _ _ s

theorem execEcall_hasEffect (s : State) : HasEffect .ecall s (execEcall s) := by
  unfold execEcall
  split
  next hwrite => exact syscallWrite_hasEffect hwrite
  next =>
    split
    · exact ⟨_, exitWith_eq (readReg s regA0) s, .nothing (fun _ => rfl) rfl rfl⟩
    · exact raise_hasEffect _ _ s

/-! ### Every instruction -/

theorem exec_hasEffect (i : Instr) (s : State) : HasEffect i s (exec i s) := by
  cases i with
  | add rd rs1 rs2 | sub rd rs1 rs2 | mul rd rs1 rs2 | and rd rs1 rs2 | or rd rs1 rs2 | xor rd rs1 rs2
  | sll rd rs1 rs2 | srl rd rs1 rs2 | sra rd rs1 rs2 | slt rd rs1 rs2 => exact aluReg_hasEffect rfl _ rs1 rs2 s
  | div rd rs1 rs2 | rem rd rs1 rs2 => exact aluDivision_hasEffect rfl _ rs1 rs2 s
  | addi rd rs1 imm | subi rd rs1 imm | andi rd rs1 imm | ori rd rs1 imm | xori rd rs1 imm
  | slli rd rs1 imm | srli rd rs1 imm | srai rd rs1 imm | slti rd rs1 imm => exact aluImm_hasEffect rfl _ rs1 imm s
  | lb rd rs1 imm | lh rd rs1 imm | lw rd rs1 imm => exact loadAt_hasEffect rfl _ _ rs1 imm s
  | sb rs1 rs2 imm | sh rs1 rs2 imm | sw rs1 rs2 imm => exact storeAt_hasEffect rfl rs1
  | beq rs1 rs2 imm | bne rs1 rs2 imm | blt rs1 rs2 imm | bge rs1 rs2 imm =>
    exact branchIf_hasEffect _ _ rs1 rs2 imm s
  | jalr rd rs1 imm => exact jumpLink_hasEffect rfl (effAddr s rs1 imm) s
  | jal rd imm => exact jumpLink_hasEffect rfl (immU imm) s
  | ecall => exact execEcall_hasEffect s
  | ebreak => exact ⟨_, exec_ebreak s, .nothing (fun _ => rfl) rfl rfl⟩

/-- The effect of an instruction that is known to answer `t`. -/
theorem effect_of_exec {i : Instr} {s t : State} (hexec : exec i s = .next t) : Effect i s t := by
  obtain ⟨u, hu, heffect⟩ := exec_hasEffect i s
  cases hu.symm.trans hexec
  exact heffect

/-! ### The frames -/

/-- Settles O14: of the effects only the register write changes a register, the destination. -/
theorem onlyTheDestinationRegisterChanges : Obligations.OnlyTheDestinationRegisterChanges := by
  intro i s t hexec r hr
  cases effect_of_exec hexec with
  | nothing hregs => exact hregs r
  | register rd v hdest hreg =>
    have hne : r ≠ rd := fun h => hr (h ▸ hdest)
    rw [hreg r, if_neg fun h => hne h.left]
  | store _ _ _ _ hregs => exact hregs r
  | event _ _ _ _ hregs => exact hregs r

theorem Effect.sameMem {i : Instr} {s t : State} (h : Effect i s t) (hnone : storeTarget i s = none) :
    SameMem s t := by
  intro b
  cases h with
  | nothing _ hmem => rw [hmem]
  | register _ _ _ _ hmem => rw [hmem]
  | store _ _ htarget => rw [hnone] at htarget; cases htarget
  | event _ _ _ _ _ hmem => rw [hmem]

theorem Effect.sameMemOutside {i : Instr} {s t : State} {a : Word} {n : Nat} (h : Effect i s t)
    (hsome : storeTarget i s = some (a, n)) : SameMemOutside a.toNat n s t := by
  intro b hb
  cases h with
  | nothing _ hmem => rw [hmem]
  | register _ _ _ _ hmem => rw [hmem]
  | store a' bs htarget _ _ hmem =>
    rw [hsome] at htarget
    cases htarget
    rw [hmem, Memory.read_writeBytes_outside _ _ _ _ hb]
  | event _ _ _ _ _ hmem => rw [hmem]

/-- Settles O15: the three stores write their target, every other instruction has none. -/
theorem onlyStoresWriteMemory : Obligations.OnlyStoresWriteMemory := by
  intro i s t hexec
  have heffect := effect_of_exec hexec
  cases i with
  | sb | sh | sw => exact heffect.sameMemOutside rfl
  | _ => exact heffect.sameMem rfl

/-- Settles O16: the event is the only effect on the output. -/
theorem onlyTheWriteCallEmits : Obligations.OnlyTheWriteCallEmits := by
  intro i s t hexec
  cases effect_of_exec hexec with
  | nothing _ _ hout => exact .inl hout
  | register _ _ _ _ _ hout => exact .inl hout
  | store _ _ _ _ _ _ hout => exact .inl hout
  | event e hi ha7 hcont _ _ hout => exact .inr ⟨hi, ha7, hcont, e, hout⟩

end Sys2Proof.Machine
end

section
/-! PROOFS. What every step keeps (40_cycle.md section 1, 00_scope.md section 6). `step_bounded` says what a step can do
to memory and to the output; with the latch rule of a step it gives the invariant, and along a run the growth of the
output. -/

namespace Sys2Proof.Machine

/-! ### The effect of a step -/

/-- Memory and output after one step: memory as it was or with one write inside the byte array, the output as it was or
with one event more. -/
structure BoundedEffect (s t : State) : Prop where
  mem : t.mem = s.mem ∨
    ∃ (a : Nat) (bs : List Byte), a + bs.length ≤ s.cfg.memSize ∧ t.mem = s.mem.writeBytes a bs
  output : t.output = s.output ∨ ∃ e, t.output = s.output ++ [e]

theorem Effect.bounded {i : Instr} {s t : State} (h : Effect i s t) : BoundedEffect s t := by
  cases h with
  | nothing _ hmem hout => exact ⟨.inl hmem, .inl hout⟩
  | register _ _ _ _ hmem hout => exact ⟨.inl hmem, .inl hout⟩
  | store a bs _ hin _ hmem hout => exact ⟨.inr ⟨a.toNat, bs, hin, hmem⟩, .inl hout⟩
  | event e _ _ _ _ hmem hout => exact ⟨.inl hmem, .inr ⟨e, hout⟩⟩

theorem bounded_of_raise {f : Fault} {s t : State} (h : raise f s = .next t) : BoundedEffect s t := by
  cases h
  exact ⟨.inl rfl, .inl rfl⟩

/-- The fetch leaves memory and output alone, so the effect of a step is that of its instruction. -/
theorem step_bounded {s t : State} (hstep : step s = .next t) : BoundedEffect s t := by
  cases hrun : s.run with
  | halted o =>
    cases (step_halted s o hrun).symm.trans hstep
    exact ⟨.inl rfl, .inl rfl⟩
  | running =>
    rw [step_running s hrun] at hstep
    split at hstep
    · have hadvanced : BoundedEffect (advanced s) t := by
        split at hstep
        · exact bounded_of_raise hstep
        · exact (effect_of_exec hstep).bounded
      exact ⟨hadvanced.mem, hadvanced.output⟩
    · exact bounded_of_raise hstep

/-! ### Every step answers -/

/-- Settles O4: a halted core repeats its outcome, and a running one ends by the latch rule, which names the outcome. -/
theorem stepAlwaysAnswersANextState : Obligations.StepAlwaysAnswersANextState := by
  intro s
  cases hrun : s.run with
  | halted o => exact ⟨_, _, step_halted s o hrun, rfl, rfl⟩
  | running =>
    obtain ⟨t, ht, hcfg, hlatch⟩ := step_keepsLatchRule s hrun
    cases hlatch with
    | continued _ hout => exact ⟨t, _, ht, hout, hcfg⟩
    | breakpoint _ hout => exact ⟨t, _, ht, hout, hcfg⟩
    | halted o _ hout => exact ⟨t, _, ht, hout, hcfg⟩

theorem cfg_of_step {s t : State} (hstep : step s = .next t) : t.cfg = s.cfg := by
  obtain ⟨u, _, hu, _, hcfg⟩ := stepAlwaysAnswersANextState s
  cases hu.symm.trans hstep
  exact hcfg

/-! ### The invariant -/

theorem BoundedEffect.memCanonical {s t : State} (h : BoundedEffect s t) (hwf : Memory.wf s.mem) :
    Memory.wf t.mem := by
  rcases h.mem with hmem | ⟨a, bs, _, hmem⟩
  · rwa [hmem]
  · rw [hmem]
    exact Memory.wf_writeBytes s.mem a bs hwf

theorem BoundedEffect.memWithin {s t : State} (h : BoundedEffect s t) (hwithin : Memory.within s.cfg.memSize s.mem) :
    Memory.within s.cfg.memSize t.mem := by
  rcases h.mem with hmem | ⟨a, bs, hin, hmem⟩
  · rwa [hmem]
  · rw [hmem]
    exact Memory.within_writeBytes _ s.mem a bs hwithin hin

theorem LatchedFrom.latchAgrees {t : State} (h : LatchedFrom .running t) : latchAgrees t := by
  cases h with
  | continued hrun hout => simp [Machine.latchAgrees, hrun, hout]
  | breakpoint hrun hout => simp [Machine.latchAgrees, hrun, hout]
  | halted o hrun hout => simp [Machine.latchAgrees, hrun, hout]

/-- A step of any core agrees with its latch: a running core by the latch rule, a halted one because it keeps its latch
and returns what it holds. -/
theorem latchAgrees_of_step {s t : State} (hstep : step s = .next t) : latchAgrees t := by
  cases hrun : s.run with
  | running => exact (latchedFrom_of_step hrun hstep).latchAgrees
  | halted o =>
    cases (step_halted s o hrun).symm.trans hstep
    simp [latchAgrees, hrun]

/-- Settles O3, field by field: the parameters stay, memory takes at most one write inside the array, and the latch
agrees after every step. -/
theorem stepKeepsTheInvariant : Obligations.StepKeepsTheInvariant := by
  intro s t hinv hstep
  have hcfg := cfg_of_step hstep
  have heffect := step_bounded hstep
  exact {
    cfg := by rw [hcfg]; exact hinv.cfg
    memCanonical := heffect.memCanonical hinv.memCanonical
    memWithin := by rw [hcfg]; exact heffect.memWithin hinv.memWithin
    latch := latchAgrees_of_step hstep }

/-- Settles O2: the default parameters are in range, the memory is empty, and no step has returned yet. -/
theorem resetStateMeetsTheInvariant : Obligations.ResetStateMeetsTheInvariant := by
  have hreset : hostReset State.reset = State.reset := resetZeroesTheCoreAndKeepsParameters.right defaultConfig
  have hwithin : Memory.within defaultConfig.memSize [] := by simp
  exact ⟨⟨⟨by decide, defaultOpcodes_wf⟩, Memory.wf_nil, hwithin, .inl rfl⟩, hreset⟩

/-! ### Runs -/

theorem BoundedEffect.output_grows {s t : State} (h : BoundedEffect s t) : s.output <+: t.output := by
  rcases h.output with hout | ⟨e, hout⟩
  · exact ⟨[], by rw [hout, List.append_nil]⟩
  · exact ⟨[e], hout.symm⟩

theorem BoundedEffect.length_output_le {s t : State} (h : BoundedEffect s t) :
    t.output.length ≤ s.output.length + 1 := by
  rcases h.output with hout | ⟨e, hout⟩
  · simp [hout]
  · simp [hout]

/-- Settles O17, by induction on the number of steps. -/
theorem outputOnlyGrowsAlongARun : Obligations.OutputOnlyGrowsAlongARun := by
  intro k
  induction k with
  | zero =>
    intro s t hrun
    cases hrun
    exact ⟨⟨[], List.append_nil _⟩, le_rfl, rfl⟩
  | succ k ih =>
    intro s t hrun
    obtain ⟨u, _, hstep, _, hcfg⟩ := stepAlwaysAnswersANextState s
    rw [run_succ k s u hstep] at hrun
    obtain ⟨hgrows, hlength, hcfg'⟩ := ih u t hrun
    have heffect := step_bounded hstep
    have hone := heffect.length_output_le
    exact ⟨heffect.output_grows.trans hgrows, by omega, hcfg'.trans hcfg⟩

/-! ### The decoded instruction -/

/-- An opcode whose slot names a mnemonic is one the table gives it. -/
theorem mem_opcodesOf_of_slotOf {t : OpcodeTable} {op : Opcode} {m : Mnemonic} (h : slotOf t op = .instr m) :
    op ∈ t.opcodesOf m :=
  List.mem_map.mpr ⟨(op, .instr m), List.mem_filter.mpr ⟨mem_of_slotOf h (by simp), beq_self_eq_true _⟩, rfl⟩

/-- Settles O5: the step of a fetched word, whose opcode is one the table gives its instruction. -/
theorem stepRunsTheDecodedInstruction : Obligations.StepRunsTheDecodedInstruction := by
  intro s i hfetches
  have ⟨_, _, hdec⟩ := hfetches
  have hslot := slotOf_of_decode hdec
  exact ⟨step_of_fetches hfetches, List.ne_nil_of_mem (mem_opcodesOf_of_slotOf hslot)⟩

end Sys2Proof.Machine
end

section
/-! PROOFS. Memory read back (20_memory.md sections 1, 2 and 6): a datum at the width it was written, a word at the next
pc, and the canonical form, in which what an address reads decides the entries. -/

namespace Sys2Proof.Machine

/-! ### Reading back -/

theorem memWrite_eq_ok_iff {s t : State} {a : Word} {n v : Nat} {p : Word} :
    memWrite s a n v p = .ok t ↔ a.toNat + n ≤ s.cfg.memSize ∧
      s.setMem (s.mem.writeBytes a.toNat (bytesOfNat s.cfg.byteOrder n v)) = t := by
  rw [memWrite_spec]
  split
  next hin => simp [hin]
  next hout => simp [hout]

/-- The value of the range a datum was written to is the datum, cut to its width (20_memory.md R64). -/
theorem natOfBytes_readBytes_writeBytes (o : ByteOrder) (m : Memory) (a n v : Nat) :
    natOfBytes o ((m.writeBytes a (bytesOfNat o n v)).readBytes a n) = v % 2 ^ (8 * n) := by
  have hread := Memory.readBytes_writeBytes m a (bytesOfNat o n v)
  rw [length_bytesOfNat] at hread
  rw [hread, natOfBytes_bytesOfNat, pow_mul]
  rfl

/-- Settles O20: the read is in bounds where the write was, and gathers the bytes the write laid down. -/
theorem sameWidthAccessHidesTheByteOrder : Obligations.SameWidthAccessHidesTheByteOrder := by
  intro s t a n v kind p q hwrite
  obtain ⟨hin, rfl⟩ := memWrite_eq_ok_iff.mp hwrite
  rw [memRead_spec, State.setMem_cfg, if_pos hin, State.setMem_mem, natOfBytes_readBytes_writeBytes]

theorem fetch_inBounds {s : State} (hin : legal s s.pc 4) : fetch s = .ok (wordAtPc s, s.setPc (s.pc + 4)) := by
  rw [fetch_spec, if_pos hin, advanced]

/-- The word at pc is the word whose four bytes were written there. -/
theorem wordAtPc_of_written {t : State} {m : Memory} {v : Word}
    (hmem : t.mem = m.writeBytes t.pc.toNat (bytesOfNat t.cfg.byteOrder 4 v.toNat)) : wordAtPc t = v := by
  rw [wordAtPc, hmem, natOfBytes_readBytes_writeBytes, Nat.mod_eq_of_lt v.isLt, BitVec.ofNat_toNat, BitVec.setWidth_eq]

/-- Settles O42: SW that continues was in bounds, so the fetch is, and it reads the four bytes written. -/
theorem nextFetchSeesTheStore : Obligations.NextFetchSeesTheStore := by
  intro s t rs1 rs2 imm hexec hcont hea
  obtain ⟨u, hu, hstore⟩ := storeAt_spec 4 rs1 rs2 imm s
  cases hu.symm.trans hexec
  rw [effAddr, immI, hea] at hstore
  split at hstore
  next hin =>
    have hpc : t.pc = s.pc := by rw [hstore]; rfl
    have hlegal : legal t t.pc 4 := by rw [hstore]; exact hin
    have hword : wordAtPc t = readReg s rs1 := wordAtPc_of_written (m := s.mem) (by rw [hstore]; rfl)
    rw [fetch_inBounds hlegal, hword, hpc]
  next =>
    obtain ⟨_, hfault, _⟩ := hstore
    rw [hcont] at hfault
    cases hfault

/-! ### The canonical form -/

/-- The entries of a canonical memory are the addresses that do not read as unlisted, with what they read. -/
theorem Memory.mem_iff_read {m : Memory} (hm : Memory.wf m) (c : Host.Cell) :
    c ∈ m ↔ m.read c.1 = c.2 ∧ c.2 ≠ unlistedByte := by
  constructor
  · intro hc
    exact ⟨Memory.read_of_mem m hm c hc, hm.right c hc⟩
  · rintro ⟨hread, hlisted⟩
    by_contra hc
    have hnot : ∀ d ∈ m, d.1 ≠ c.1 := by
      intro d hd haddr
      have hd' := Memory.read_of_mem m hm d hd
      rw [haddr, hread] at hd'
      exact hc (Prod.ext haddr hd'.symm ▸ hd)
    exact hlisted (hread ▸ Memory.read_of_not_listed m c.1 hnot)

/-- Settles O22: alike reads give the same entries, and rising addresses leave one order for them. -/
theorem canonicalMemoriesThatReadAlikeAreEqual : Obligations.CanonicalMemoriesThatReadAlikeAreEqual := by
  intro m m' hm hm' hread
  have hmem : ∀ c, c ∈ m ↔ c ∈ m' := fun c => by
    rw [Memory.mem_iff_read hm, Memory.mem_iff_read hm', hread]
  have hnodup : ∀ {l : Memory}, Memory.wf l → l.Nodup := fun hl =>
    hl.left.imp fun hlt heq => hlt.ne (congrArg Prod.fst heq)
  have hperm : m.Perm m' := (List.perm_ext_iff_of_nodup (hnodup hm) (hnodup hm')).mpr hmem
  exact hperm.eq_of_pairwise (fun c d _ _ hcd hdc => absurd hcd hdc.asymm) hm.left hm'.left

end Sys2Proof.Machine
end

section
/-! PROOFS. Decode after encode (30_encoding.md sections 3 and 4) and patching (30_encoding.md R124). The word of an
instruction under an opcode holds exactly the instruction's record, and the word of a record with another immediate
is the bits below the immediate with that field placed on them. -/

namespace Sys2Proof

/-! ### Records of instructions -/

namespace Laws.FieldsRoundTrip

/-- An instruction is the one its mnemonic makes of its own fields, the 35 facts together. -/
theorem instrOf_recordOf : ∀ i : Instr, Statement i
  | .add .. => add _ _ _ | .sub .. => sub _ _ _ | .mul .. => mul _ _ _ | .div .. => div _ _ _
  | .rem .. => rem _ _ _ | .and .. => and _ _ _ | .or .. => or _ _ _ | .xor .. => xor _ _ _
  | .sll .. => sll _ _ _ | .srl .. => srl _ _ _ | .sra .. => sra _ _ _ | .slt .. => slt _ _ _
  | .addi .. => addi _ _ _ | .subi .. => subi _ _ _ | .andi .. => andi _ _ _ | .ori .. => ori _ _ _
  | .xori .. => xori _ _ _ | .slli .. => slli _ _ _ | .srli .. => srli _ _ _ | .srai .. => srai _ _ _
  | .slti .. => slti _ _ _ | .lb .. => lb _ _ _ | .lh .. => lh _ _ _ | .lw .. => lw _ _ _ | .sb .. => sb _ _ _
  | .sh .. => sh _ _ _ | .sw .. => sw _ _ _ | .beq .. => beq _ _ _ | .bne .. => bne _ _ _ | .blt .. => blt _ _ _
  | .bge .. => bge _ _ _ | .jalr .. => jalr _ _ _ | .jal .. => jal _ _ | .ecall => ecall | .ebreak => ebreak

end Laws.FieldsRoundTrip

/-- A record's fields survive the masking of its format. -/
def Decoded.fits (d : Decoded) : Prop :=
  maskedRecord d.itype d.opcode.toNat d.rd.toNat d.rs1.toNat d.rs2.toNat d.imm.toNat = d

/-- The record of an instruction fits: its immediate has the width of its format's field. -/
theorem fits_recordOf (op : Opcode) (i : Instr) : (recordOf op i).fits := by
  cases i with
  | add | sub | mul | div | rem | and | or | xor | sll | srl | sra | slt | jal | ecall | ebreak =>
    simp [Decoded.fits, recordOf, maskedRecord]
  | addi rd rs imm | subi rd rs imm | andi rd rs imm | ori rd rs imm | xori rd rs imm
  | slli rd rs imm | srli rd rs imm | srai rd rs imm | slti rd rs imm
  | lb rd rs imm | lh rd rs imm | lw rd rs imm | jalr rd rs imm
  | sb ra rb imm | sh ra rb imm | sw ra rb imm
  | beq ra rb imm | bne ra rb imm | blt ra rb imm | bge ra rb imm =>
    have himm := Laws.FieldsRoundTrip.imm15_kept imm
    simp only [Decoded.fits, recordOf, maskedRecord, BitVec.ofInt_natCast, BitVec.ofNat_toNat, BitVec.setWidth_eq, himm]

/-- The word of a record that fits reads back as the record. -/
theorem decodeAs_encodeRecord {d : Decoded} (h : d.fits) : decodeAs d.itype (encodeRecord d) = d := by
  rw [encodeRecord, decodeAs_encodeFields]
  exact h

theorem opcodeField_encodeRecord (d : Decoded) : opcodeField (encodeRecord d) = d.opcode := by
  rw [encodeRecord, opcodeField_encodeFields, BitVec.ofInt_natCast, BitVec.ofNat_toNat, BitVec.setWidth_eq]

/-! ### Decode after encode -/

/-- Under an opcode that names its mnemonic, the word of an instruction decodes to the instruction. -/
theorem decode_encodeRecord {t : OpcodeTable} {op : Opcode} {i : Instr} (h : slotOf t op = .instr i.mnemonic) :
    decode t (encodeRecord (recordOf op i)) = .ok i := by
  have hslot : slotOf t (opcodeField (encodeRecord (recordOf op i))) = .instr i.mnemonic := by
    rwa [opcodeField_encodeRecord, opcode_recordOf]
  have hrecord := decodeAs_encodeRecord (fits_recordOf op i)
  rw [itype_recordOf] at hrecord
  rw [decode_of_instr hslot, hrecord, Laws.FieldsRoundTrip.instrOf_recordOf i op]

/-- In a table that is a map, the opcode the encoder uses is one whose slot names the mnemonic. -/
theorem opcodeOf_of_wf {t : OpcodeTable} {i : Instr} (ht : OpcodeTable.wf t) (hi : Instr.wf t i) :
    ∃ op, opcodeOf t i.mnemonic = some op ∧ slotOf t op = .instr i.mnemonic := by
  have hhead := List.head?_eq_some_head hi
  obtain ⟨⟨op, slot⟩, hentry, hop⟩ := List.mem_map.mp (List.head_mem hi)
  obtain ⟨hmem, hslot⟩ := List.mem_filter.mp hentry
  cases eq_of_beq hslot
  exact ⟨op, by rw [opcodeOf, hhead, ← hop], slotOf_of_mem ht hmem⟩

theorem exists_encode {t : OpcodeTable} {i : Instr} (ht : OpcodeTable.wf t) (hi : Instr.wf t i) :
    ∃ w, encode t i = some w ∧ decode t w = .ok i := by
  obtain ⟨op, hop, hslot⟩ := opcodeOf_of_wf ht hi
  exact ⟨_, by rw [encode, hop, Option.map_some], decode_encodeRecord hslot⟩

/-- The default table has an opcode for every mnemonic (30_encoding.md R112). -/
theorem opcodesOf_defaultOpcodes_ne_nil (m : Mnemonic) : defaultOpcodes.opcodesOf m ≠ [] := by
  cases m <;> decide

/-- Settles O25: the word is that of the instruction's record under the table's opcode for it. -/
theorem decodeInvertsEncode : Obligations.DecodeInvertsEncode :=
  ⟨fun _ _ => exists_encode, fun i => exists_encode defaultOpcodes_wf (opcodesOf_defaultOpcodes_ne_nil i.mnemonic)⟩

/-! ### Patching -/

theorem toNat_lowBits (n : Nat) (w : Word) (hn : n ≤ 32) : (lowBits n w).toNat = w.toNat % 2 ^ n := by
  have hpow : 2 ^ n ≤ 2 ^ 32 := Nat.pow_le_pow_right (by omega) hn
  rw [lowBits, BitVec.toNat_and, BitVec.toNat_ofNat, Nat.mod_eq_of_lt (by omega), Nat.and_two_pow_sub_one_eq_mod]

/-- The low bits of a word with a truncated value placed on them. -/
theorem toNat_lowBits_or_value (w : Word) (v : Int) {p n : Nat} (h : p + n ≤ 32) :
    ((lowBits p w ||| placeField (BitVec.ofInt n v) p).toNat : Int) = w.toNat % 2 ^ p + v % 2 ^ n * 2 ^ p := by
  have hlow := toNat_lowBits p w (by omega)
  have hlt : (lowBits p w).toNat < 2 ^ p := hlow ▸ Nat.mod_lt _ (by positivity)
  rw [toNat_or_placeField _ _ p hlt h, hlow]
  push_cast [natCast_toNat_ofInt]
  rfl

namespace Machine

theorem patchWord_of_patchRecord_ok {t : OpcodeTable} {w : Word} {m : Mnemonic} {v : Int} {d : Decoded}
    (h : slotOf t (opcodeField w) = .instr m) (hpatch : patchRecord (decodeAs m.itype w) v = .ok d) :
    patchWord t w v = .ok (encodeRecord d) := by
  simp only [patchWord, decodeRecord_of_instr h, hpatch]

theorem patchWord_of_patchRecord_error {t : OpcodeTable} {w : Word} {m : Mnemonic} {v : Int} {e : AsmError}
    (h : slotOf t (opcodeField w) = .instr m) (hpatch : patchRecord (decodeAs m.itype w) v = .error e) :
    patchWord t w v = .error e := by
  simp only [patchWord, decodeRecord_of_instr h, hpatch]

/-- The I and S formats take the value cut to 15 bits (30_encoding.md R124). -/
theorem patchRecord_imm15 {it : IType} (hit : it = .I ∨ it = .S) (w : Word) (v : Int) :
    patchRecord (decodeAs it w) v = .ok { decodeAs it w with imm := (BitVec.ofInt 15 v).setWidth 20 } := by
  rcases hit with rfl | rfl
  · rfl
  · rfl

/-- The U format takes the value cut to 20 bits (30_encoding.md R124). -/
theorem patchRecord_imm20 {it : IType} (hit : it = .U) (w : Word) (v : Int) :
    patchRecord (decodeAs it w) v = .ok { decodeAs it w with imm := BitVec.ofInt 20 v } := by
  subst hit
  rfl

/-- The R and E formats have no immediate to patch. -/
theorem patchRecord_no_imm {it : IType} (hit : it = .R ∨ it = .E) (w : Word) (v : Int) :
    patchRecord (decodeAs it w) v = .error .noImmediateField := by
  rcases hit with rfl | rfl
  · rfl
  · rfl

/-- The word patched in an I or S record keeps the 17 bits below the immediate (30_encoding.md R104, R105). -/
theorem encodeRecord_patched_imm15 {it : IType} (hit : it = .I ∨ it = .S) (w : Word) (v : Int) :
    encodeRecord { decodeAs it w with imm := (BitVec.ofInt 15 v).setWidth 20 } =
      lowBits 17 w ||| placeField (BitVec.ofInt 15 v) 17 := by
  have himm := Laws.FieldsRoundTrip.imm15_kept (BitVec.ofInt 15 v)
  rcases hit with rfl | rfl <;>
    simp only [encodeRecord, encodeFields, decodeAs, BitVec.ofInt_natCast, BitVec.ofNat_toNat, BitVec.setWidth_eq,
      himm, placeField_opcodeField, lowBits_or_placeField, Nat.reduceAdd]

/-- The word patched in a U record keeps the 12 bits below the immediate (30_encoding.md R106). -/
theorem encodeRecord_patched_imm20 {it : IType} (hit : it = .U) (w : Word) (v : Int) :
    encodeRecord { decodeAs it w with imm := BitVec.ofInt 20 v } =
      lowBits 12 w ||| placeField (BitVec.ofInt 20 v) 12 := by
  subst hit
  simp only [encodeRecord, encodeFields, decodeAs, BitVec.ofInt_natCast, BitVec.ofNat_toNat, BitVec.setWidth_eq,
    placeField_opcodeField, lowBits_or_placeField, Nat.reduceAdd]

/-- Settles O30: by format, the bits below the immediate with the truncated value placed on them, or the refusal. -/
theorem patchReplacesTheImmediateAlone : Obligations.PatchReplacesTheImmediateAlone := by
  intro t w m v h
  refine ⟨fun hit => ⟨_, patchWord_of_patchRecord_ok h (patchRecord_imm15 hit w v), ?imm15⟩,
    fun hit => ⟨_, patchWord_of_patchRecord_ok h (patchRecord_imm20 hit w v), ?imm20⟩,
    fun hit => patchWord_of_patchRecord_error h (patchRecord_no_imm hit w v)⟩
  case imm15 =>
    rw [encodeRecord_patched_imm15 hit]
    exact toNat_lowBits_or_value w v (by omega)
  case imm20 =>
    rw [encodeRecord_patched_imm20 hit]
    exact toNat_lowBits_or_value w v (by omega)

/-! ### Words written out -/

/-- Settles O29: each word by the encoding of its opcode, with its fields read. -/
theorem wordsWrittenOutDecode : Obligations.WordsWrittenOutDecode := by
  obtain ⟨hadd, _⟩ := addSubMulWrap
  obtain ⟨haddi, _⟩ := addiSubiWrap
  obtain ⟨_, _, hsw, _⟩ := storesWriteTheLowBytes
  obtain ⟨hbeq, _⟩ := branchesCompareAndGoToTheImmediate
  obtain ⟨hjal, _⟩ := jumpsLinkTheNextInstruction
  obtain ⟨hecall, _⟩ := exitCallHaltsAndOtherCallsFault
  exact ⟨hadd _ rfl, haddi _ rfl, hsw _ rfl, hbeq _ rfl, hjal _ rfl, hecall _ rfl⟩

end Machine
end Sys2Proof
end

section
/-! PROOFS. Immediate operands (30_encoding.md R123). Digits are read from the most significant down, so the number after
a digit string is the accumulator shifted by its length plus its value; the token forms differ in their first two
characters. -/

namespace Sys2Proof.Machine

/-! ### Digits -/

/-- A digit's character has the digit's value in every base that has the digit. -/
theorem digitValue_digitChar {base d : Nat} (hd : d < base) (hbase : base ≤ 16) :
    digitValue base (Nat.digitChar d) = some d := by
  have hd16 : d < 16 := by omega
  interval_cases d <;> exact if_pos hd

theorem numberOfDigits_map_digitChar {base : Nat} (hbase : base ≤ 16) {ds : List Nat} (hds : ∀ d ∈ ds, d < base)
    (acc : Nat) :
    numberOfDigits base acc (ds.map Nat.digitChar) = some (acc * base ^ ds.length + Nat.ofDigits base ds.reverse) := by
  induction ds generalizing acc with
  | nil => simp [numberOfDigits]
  | cons d ds ih =>
    obtain ⟨hd, htail⟩ := List.forall_mem_cons.mp hds
    rw [List.map_cons, numberOfDigits, digitValue_digitChar hd hbase]
    simp only [ih htail, List.length_cons, List.reverse_cons, Nat.ofDigits_append, List.length_reverse,
      Nat.ofDigits_singleton]
    congr 1
    ring

/-- The number a whole digit string stands for. -/
theorem numberOfDigits_zero {base : Nat} (hbase : base ≤ 16) {ds : List Nat} (hds : ∀ d ∈ ds, d < base) :
    numberOfDigits base 0 (ds.map Nat.digitChar) = some (Nat.ofDigits base ds.reverse) := by
  rw [numberOfDigits_map_digitChar hbase hds, Nat.zero_mul, Nat.zero_add]

/-- A decimal digit is none of the characters that open another token form. -/
theorem decimalDigit_ne {d : Nat} (hd : d < 10) :
    Nat.digitChar d ≠ '-' ∧ (Nat.digitChar d).toNat ≠ 39 ∧ Nat.digitChar d ≠ 'x' := by
  interval_cases d <;> decide

/-! ### The token forms -/

/-- A token that opens with neither a quote nor `0x` is read in decimal. -/
theorem unsignedImmediate_decimal {c : Char} {cs : List Char} (hquote : c.toNat ≠ 39) (hx : cs.head? ≠ some 'x') :
    unsignedImmediate (c :: cs) = numberOfDigits 10 0 (c :: cs) := by
  rcases cs with _ | ⟨d, _ | ⟨e, _ | ⟨f, cs⟩⟩⟩
  · rfl
  · rfl
  all_goals
    have hd : d ≠ 'x' := by simpa using hx
    simp [unsignedImmediate, hquote, hd]

/-- A token that opens with `0x` and goes on is read in hexadecimal. -/
theorem unsignedImmediate_hex {cs : List Char} (hne : cs ≠ []) :
    unsignedImmediate ('0' :: 'x' :: cs) = numberOfDigits 16 0 cs := by
  rcases cs with _ | ⟨d, _ | ⟨e, cs⟩⟩
  · exact absurd rfl hne
  · rfl
  · rfl

theorem unsignedImmediate_quoted {c : Char} (hquote : c.toNat ≠ 39) (hslash : c.toNat ≠ 92) :
    unsignedImmediate [Char.ofNat 39, c, Char.ofNat 39] = some c.toNat := by
  have hplain : plainChar c = some c.toNat := if_neg (not_or.mpr ⟨hquote, hslash⟩)
  rw [← hplain]
  rfl

/-- A token without a sign has the value of its unsigned form. -/
theorem immediateOfToken_unsigned {tok : List Char} {n : Nat} (hsign : tok.head? ≠ some '-')
    (h : unsignedImmediate tok = some n) : immediateOfToken tok = some (n : Int) := by
  cases tok with
  | nil => cases h
  | cons c cs =>
    have hc : c ≠ '-' := by simpa using hsign
    rw [immediateOfToken, if_neg hc, h]
    rfl

/-! ### The values -/

theorem immediateOfToken_decimal {ds : List Nat} (hne : ds ≠ []) (hds : ∀ d ∈ ds, d < 10) :
    immediateOfToken (ds.map Nat.digitChar) = some (Nat.ofDigits 10 ds.reverse : Nat) := by
  have hvalue := numberOfDigits_zero (by omega) hds
  cases ds with
  | nil => exact absurd rfl hne
  | cons d ds =>
    obtain ⟨hd, htail⟩ := List.forall_mem_cons.mp hds
    obtain ⟨hminus, hquote, _⟩ := decimalDigit_ne hd
    have hx : (ds.map Nat.digitChar).head? ≠ some 'x' := by
      cases ds with
      | nil => simp
      | cons e es =>
        obtain ⟨_, _, he⟩ := decimalDigit_ne (htail e (by simp))
        simp [he]
    rw [List.map_cons] at hvalue ⊢
    exact immediateOfToken_unsigned (by simp [hminus]) ((unsignedImmediate_decimal hquote hx).trans hvalue)

theorem immediateOfToken_hex {ds : List Nat} (hne : ds ≠ []) (hds : ∀ d ∈ ds, d < 16) :
    immediateOfToken ('0' :: 'x' :: ds.map Nat.digitChar) = some (Nat.ofDigits 16 ds.reverse : Nat) :=
  immediateOfToken_unsigned (by simp)
    ((unsignedImmediate_hex (by simpa using hne)).trans (numberOfDigits_zero le_rfl hds))

theorem immediateOfToken_quoted {c : Char} (hquote : c.toNat ≠ 39) (hslash : c.toNat ≠ 92) :
    immediateOfToken [Char.ofNat 39, c, Char.ofNat 39] = some (c.toNat : Int) :=
  immediateOfToken_unsigned (by simp) (unsignedImmediate_quoted hquote hslash)

/-- A leading minus negates the value of a token that has no sign of its own. -/
theorem immediateOfToken_neg {tok : List Char} {v : Int} (hsign : tok.head? ≠ some '-')
    (h : immediateOfToken tok = some v) : immediateOfToken ('-' :: tok) = some (-v) := by
  cases tok with
  | nil => cases h
  | cons c cs =>
    have hc : c ≠ '-' := by simpa using hsign
    rw [immediateOfToken, if_neg hc] at h
    obtain ⟨n, hn, rfl⟩ := Option.map_eq_some_iff.mp h
    rw [immediateOfToken, if_pos rfl, hn, Option.map_some]

/-- Settles O31, token form by token form; the field is the value's residue. -/
theorem immediateOperandsHaveTheirValues : Obligations.ImmediateOperandsHaveTheirValues := by
  refine ⟨fun _ => immediateOfToken_decimal, fun _ => immediateOfToken_hex, fun _ => immediateOfToken_quoted,
    rfl, rfl, rfl, fun _ _ => immediateOfToken_neg, fun width tok v h => ?field⟩
  case field =>
    exact ⟨BitVec.ofInt width v, by rw [immediateField, h, Option.map_some], natCast_toNat_ofInt width v⟩

end Sys2Proof.Machine
end

section
/-! PROOFS. The division identity (41_alu.md R222). Outside the overflowing pair quotient and remainder are the signed
division and remainder of words, whose signed values are the truncated ones of the integers; the word identity is
the integer one mod 2^32. -/

namespace Sys2Proof.Machine

/-- Outside the overflowing pair the quotient fits a word (R204). -/
theorem toInt_sdiv_of_not_overflow {a b : Word} (h : ¬(a.toInt = -2 ^ 31 ∧ b.toInt = -1)) :
    (a.sdiv b).toInt = a.toInt.tdiv b.toInt := by
  refine BitVec.toInt_sdiv_of_ne_or_ne a b (not_and_or.mp fun hover => h ?_)
  obtain ⟨rfl, rfl⟩ := hover
  decide

theorem aluDiv_eq_sdiv {p : DivZero} {a b : Word} (hb : b.toInt ≠ 0) (h : ¬(a.toInt = -2 ^ 31 ∧ b.toInt = -1)) :
    aluDiv p a b = some (a.sdiv b) := by
  rw [aluDiv_quotient hb h, ← tdiv_eq_sign_mul_floor, ← toInt_sdiv_of_not_overflow h, BitVec.ofInt_toInt]

theorem aluRem_eq_srem {p : DivZero} {a b : Word} (hb : b.toInt ≠ 0) (h : ¬(a.toInt = -2 ^ 31 ∧ b.toInt = -1)) :
    aluRem p a b = some (a.srem b) := by
  rw [aluRem_remainder hb h, ← tdiv_eq_sign_mul_floor, ← Int.tmod_def, ← BitVec.toInt_srem, BitVec.ofInt_toInt]

/-- An identity of signed values is one of words. -/
theorem eq_mul_add_of_toInt {a b q r : Word} (h : a.toInt = q.toInt * b.toInt + r.toInt) : a = q * b + r := by
  simpa [BitVec.ofInt_add, BitVec.ofInt_mul] using congrArg (BitVec.ofInt 32) h

theorem natAbs_tmod_lt (a : Int) {b : Int} (hb : b ≠ 0) : (a.tmod b).natAbs < b.natAbs := by
  rw [Int.natAbs_tmod]
  exact Nat.mod_lt _ (Int.natAbs_pos.mpr hb)

/-- A truncated remainder is 0 or has the dividend's sign. -/
theorem tmod_eq_zero_or_sign_eq (a b : Int) : a.tmod b = 0 ∨ (a.tmod b).sign = a.sign := by
  by_cases hdvd : b ∣ a
  · exact .inl (Int.tmod_eq_zero_of_dvd hdvd)
  · exact .inr (by rw [Int.sign_tmod, if_neg hdvd])

/-- Settles O39: -2^31 by -1 by its values, which wrap, and every other pair by the identity of the integers. -/
theorem divisionIdentity : Obligations.DivisionIdentity := by
  intro p a b hne
  have hb : b.toInt ≠ 0 := fun h => hne (BitVec.toInt_inj.mp h)
  by_cases hover : a.toInt = -2 ^ 31 ∧ b.toInt = -1
  · obtain rfl : a = 0x80000000 := BitVec.toInt_inj.mp hover.left
    obtain rfl : b = 0xFFFFFFFF := BitVec.toInt_inj.mp hover.right
    exact ⟨_, _, aluDiv_overflow hover, aluRem_overflow hover, by decide, fun h => absurd hover h, by decide, .inl rfl⟩
  · have hidentity : a.toInt = (a.sdiv b).toInt * b.toInt + (a.srem b).toInt := by
      rw [toInt_sdiv_of_not_overflow hover, BitVec.toInt_srem, Int.tdiv_mul_add_tmod]
    refine ⟨_, _, aluDiv_eq_sdiv hb hover, aluRem_eq_srem hb hover, eq_mul_add_of_toInt hidentity,
      fun _ => hidentity, ?_, ?_⟩
    · rw [BitVec.toInt_srem]
      exact natAbs_tmod_lt _ hb
    · rw [BitVec.toInt_srem]
      exact tmod_eq_zero_or_sign_eq _ _

end Sys2Proof.Machine
end

section
/-! PROOFS. Bad targets (43_control.md R267). A branch or jump continues whatever its target is, so a target outside
memory meets the bounds check of the next fetch; an immediate with bit 14 set is negative, and its sign extension lies above
every memory of a legal size. -/

namespace Sys2Proof.Machine

/-! ### Branches and jumps continue -/

theorem Continued.outcome_eq {s t : State} (h : Continued s t) : t.outcome = some .continued := by
  obtain ⟨_, _, _, hout⟩ := h
  exact hout

theorem continued_of_branchIf {c : Word → Word → Bool} {rs1 rs2 : RegIdx} {imm : BitVec 15} {s t : State}
    (h : branchIf c rs1 rs2 imm s = .next t) : Continued s t := by
  cases (branchIf_spec c rs1 rs2 imm s).symm.trans h
  exact ⟨rfl, rfl, rfl, rfl⟩

theorem continued_of_jumpLink {rd : RegIdx} {target : Word} {s t : State} (h : jumpLink rd target s = .next t) :
    Continued s t := by
  obtain ⟨u, hu, _, _, _, hcont⟩ := jumpLink_spec rd target s
  cases hu.symm.trans h
  exact hcont

theorem continued_of_control {i : Instr} {s t : State}
    (hi : i.mnemonic ∈ [Mnemonic.beq, .bne, .blt, .bge, .jal, .jalr]) (hexec : exec i s = .next t) :
    Continued s t := by
  cases i with
  | beq | bne | blt | bge => exact continued_of_branchIf hexec
  | jal | jalr => exact continued_of_jumpLink hexec
  | _ => simp [Instr.mnemonic] at hi

/-- A state a running core continues to faults at its fetch where pc lies outside memory (40_cycle.md R161). -/
theorem step_faults_of_continued {s t : State} (hrun : s.run = .running) (hcont : Continued s t)
    (hout : s.cfg.memSize < t.pc.toNat + 4) :
    ∃ u, step t = .next u ∧ FaultTaken (.outOfBounds t.pc 4 .fetch t.pc) t u := by
  obtain ⟨hcfg, hrun', _⟩ := hcont
  exact step_of_fetch_outOfBounds (hrun'.trans hrun) (hcfg ▸ hout)

/-! ### Negative immediates -/

/-- The sign extension of an immediate with bit 14 set is one of the top 2^14 addresses (30_encoding.md R109). -/
theorem le_toNat_signExtend {imm : BitVec 15} (h : 2 ^ 14 ≤ imm.toNat) :
    2 ^ 32 - 2 ^ 14 ≤ (imm.signExtend 32).toNat := by
  have hmsb : imm.msb = true := by
    rw [BitVec.msb_eq_decide]
    exact decide_eq_true h
  rw [BitVec.toNat_signExtend, hmsb, if_pos rfl, BitVec.toNat_setWidth]
  omega

/-! ### Taken branches -/

/-- A branch whose condition holds continues at its immediate (R260). -/
theorem branchIf_taken {c : Word → Word → Bool} {rs1 rs2 : RegIdx} {s : State} {P : Prop} [Decidable P]
    (imm : BitVec 15) (hcond : c (readReg s rs1) (readReg s rs2) = true ↔ P) (hP : P) :
    ∃ t, branchIf c rs1 rs2 imm s = .next t ∧ t.pc = imm.signExtend 32 ∧ Continued s t := by
  obtain ⟨t, ht, hpc, _, _, hcont⟩ := branchIf_goes imm hcond
  exact ⟨t, ht, hpc.trans (if_pos hP), hcont⟩

/-- Settles O45: the fetch at the target is out of bounds, by hypothesis or because the target is a negative immediate. -/
theorem badTargetFaultsAtTheNextFetch : Obligations.BadTargetFaultsAtTheNextFetch := by
  constructor
  · intro i s t hi hrun hexec hout
    have hcont := continued_of_control hi hexec
    exact ⟨hcont.outcome_eq, step_faults_of_continued hrun hcont hout⟩
  · rintro i rs1 rs2 imm s _ _ rfl rfl hwf hrun himm htaken
    have hgoes : ∃ t, exec i s = .next t ∧ t.pc = imm.signExtend 32 ∧ Continued s t := by
      rcases htaken with ⟨rfl, hcond⟩ | ⟨rfl, hcond⟩ | ⟨rfl, hcond⟩ | ⟨rfl, hcond⟩
      · exact branchIf_taken imm (eqWords_iff _ _) hcond
      · exact branchIf_taken imm (neWords_iff _ _) hcond
      · exact branchIf_taken imm (ltSigned_iff _ _) hcond
      · exact branchIf_taken imm (geSigned_iff _ _) hcond
    obtain ⟨t, hexec, hpc, hcont⟩ := hgoes
    obtain ⟨⟨_, hsize⟩, _⟩ := hwf
    have htarget := le_toNat_signExtend himm
    obtain ⟨u, hu, hfault⟩ := step_faults_of_continued hrun hcont (by rw [hpc]; omega)
    rw [hpc] at hfault
    exact ⟨t, u, hexec, hcont.outcome_eq, hu, hfault⟩

end Sys2Proof.Machine
end
